-- ==== Sys2Proof/Word.lean ====
section
/-!
DEFINITION. The word types of the block: an 8-bit FIFO entry (10_state.md R20), a 16-bit value of
persistence or program memory (20_memory.md R53), a 32-bit baud rate (10_state.md R33) and the 64-bit
operation word (30_encoding.md R70).
-/

namespace Sys2Proof

/-- One FIFO storage entry, or one byte of a memory outside the block (R20, R53). -/
abbrev Byte := BitVec 8

/-- A 16-bit value of persistence or program memory (R53). -/
abbrev Half := BitVec 16

/-- A baud rate in bits per second; BW = 32 (R33, 92 D39). -/
abbrev Baud := BitVec 32

/-- An operation word (R70). -/
abbrev OpWord := BitVec 64

end Sys2Proof
end

