-- ==== Sys2Proof/Config.lean ====
section
/-!
DEFINITION. What a build of the block fixes: the parameters of 00_scope.md section 5, as one record
of plain data, and the free values the spec leaves open (93_implementation_defined.md).
-/

namespace Sys2Proof

/-- The byte order of a 16-bit value seen as two bytes, PMEM_BYTE_ORDER (20_memory.md R53). -/
inductive ByteOrder where
  | little
  | big
deriving DecidableEq, Repr

/-- The parameters of 00_scope.md section 5. BW is 32 and ARM_BAUD is 1200 in every build (log 5). -/
structure Config where
  /-- K: log2 of the FIFO capacity. -/
  k : Nat
  /-- TW: width of the tick counter and of the timeout register. -/
  tw : Nat
  /-- TIMEOUT_INIT: reset value of the timeout register. -/
  timeoutInit : Nat
  /-- LE_EVENT_ARMS: whether a line-encoding event may arm. -/
  leEventArms : Bool
  /-- MAGIC_KEY: the sentinel. -/
  magicKey : Half
  /-- PAW: persistence-memory address width. -/
  paw : Nat
  /-- MODERN_SLOT_ADDR: the high slot. -/
  modernSlotAddr : Nat
  /-- LEGACY_SLOT_ADDR: the low slot. -/
  legacySlotAddr : Nat
  /-- PGAW: program-memory address width. -/
  pgaw : Nat
  /-- SIG_ADDR: where the probe reads. -/
  sigAddr : Nat
  /-- SIG_VALUE: the signature. -/
  sigValue : Half
  /-- T_ARM, in milliseconds. -/
  tArm : Nat
  /-- T_ABSORB, in milliseconds. -/
  tAbsorb : Nat
  /-- PMEM_BYTE_ORDER. -/
  byteOrder : ByteOrder
  /-- ABSORB_EXPIRY_RESETS: whether the end of the absorption countdown resets the device. -/
  absorbExpiryResets : Bool
deriving DecidableEq, Repr

/-- ARM_BAUD, fixed (00_scope.md section 5, 41_handshake.md R123). -/
def armBaud : Baud := 1200

/-- N = 2^K (00_scope.md R6). -/
def Config.capacity (c : Config) : Nat := 2 ^ c.k

/-- PW = K + 1 (00_scope.md section 5). -/
def Config.pw (c : Config) : Nat := c.k + 1

/-! ### Free values: constants without a body, so that no proof can see them -/

/-- K - 1 of the build that `State.reset` belongs to (OPEN, 93 part 2; log 4). -/
opaque Config.freeKPred : Nat
/-- MAGIC_KEY - 1 of that build (OPEN; nonzero by R5; log 4). -/
opaque Config.freeMagicPred : Fin 65535
/-- LEGACY_SLOT_ADDR of that build (OPEN; log 4). -/
opaque Config.freeLegacySlotAddr : Nat
/-- MODERN_SLOT_ADDR - LEGACY_SLOT_ADDR - 2 of that build (OPEN; R5; log 4). -/
opaque Config.freeSlotGap : Nat
/-- How much wider than needed a persistence-memory address of that build is (OPEN; log 4). -/
opaque Config.freePawSlack : Nat
/-- SIG_ADDR of that build (OPEN; log 4). -/
opaque Config.freeSigAddr : Nat
/-- How much wider than needed a program-memory address of that build is (OPEN; log 4). -/
opaque Config.freePgawSlack : Nat
/-- SIG_VALUE of that build (OPEN; log 4). -/
opaque Config.freeSigValue : Half
/-- ABSORB_EXPIRY_RESETS of that build's environment (OPEN, 92 D20; log 4). -/
opaque Config.freeAbsorbExpiryResets : Bool

/-- What a byte of persistence memory holds at power-on: any value (U13, 10_state.md R37; log 9). -/
opaque Config.pmemPowerOn : Nat → Byte
/-- What a byte of program memory holds at power-on: any value (U13, 10_state.md R38; log 9). -/
opaque Config.progPowerOn : Nat → Byte

/-- The build `State.reset` belongs to: the spec's defaults where 93 part 2 gives them (log 5), free
constants for the OPEN parameters, within the constraints of R5 (DESIGN CHOICE, log 4). -/
def Config.unspecified : Config where
  k := Config.freeKPred + 1
  tw := 16
  timeoutInit := 0
  leEventArms := true
  magicKey := BitVec.ofNat 16 (Config.freeMagicPred.val + 1)
  paw := (Config.freeLegacySlotAddr + 2 + Config.freeSlotGap).log2 + 1 + Config.freePawSlack
  modernSlotAddr := Config.freeLegacySlotAddr + 2 + Config.freeSlotGap
  legacySlotAddr := Config.freeLegacySlotAddr
  pgaw := Config.freeSigAddr.log2 + 1 + Config.freePgawSlack
  sigAddr := Config.freeSigAddr
  sigValue := Config.freeSigValue
  tArm := 100
  tAbsorb := 250
  byteOrder := .little
  absorbExpiryResets := Config.freeAbsorbExpiryResets

end Sys2Proof
end

