-- ==== Sys2Proof/Syntax.lean ====
section
/-!
DEFINITION. The operations of the block, one constructor per row of spec/opcode_table.json, each with
the fields of its format (30_encoding.md R71, R76). A field's width is its type.
-/

namespace Sys2Proof

/-- The operations (R80). -/
inductive Instr where
  /-- One tick of the timebase (R151). -/
  | tick
  /-- A received byte D (R153). -/
  | rxb (d : Byte)
  /-- The scheduler loop starts its step 2 (R156). -/
  | poll
  /-- The USB channel answers a send attempt: OK (R158). -/
  | srsp (ok : Bool)
  /-- A line-encoding event: BAUD, PAR, STOP2, DBITS (R124). -/
  | lenc (baud : Baud) (par : BitVec 2) (stop2 : BitVec 1) (dbits : BitVec 4)
  /-- A control-line event: DTR, RTS (R125). -/
  | ctrl (dtr : Bool) (rts : Bool)
  /-- Reset (R230). -/
  | rst
deriving DecidableEq, Repr

end Sys2Proof
end

