-- ==== Sys2Proof/WellFormed.lean ====
section
/-!
DEFINITION. The two things that can be ill-formed. A configuration: 00_scope.md R5 and the address
widths of its section 5. An operation word: an opcode outside the map, or a reserved bit that is 1
(30_encoding.md R70, R71, R81). A term of `Instr` cannot be: each field's type has its field's width.
-/

namespace Sys2Proof

/-- The constraints of R5, and that each address has PAW or PGAW bits (93 part 2; log 3). -/
def Config.valid (c : Config) : Bool :=
  decide (1 ≤ c.k) && decide (2 ≤ c.tw) && decide (c.timeoutInit ≤ 2 ^ c.tw - 1) &&
    decide (c.magicKey ≠ 0) && decide (c.legacySlotAddr + 1 < c.modernSlotAddr) &&
    decide (c.modernSlotAddr < 2 ^ c.paw) && decide (c.sigAddr < 2 ^ c.pgaw)

/-- The formats of R71. -/
inductive Format where
  | z
  | b
  | s
  | l
  | c
deriving DecidableEq, Repr

/-- The opcodes of R80, by name. -/
inductive Opcode where
  | tick
  | rxb
  | poll
  | srsp
  | lenc
  | ctrl
  | rst
deriving DecidableEq, Repr

/-- OPC of each operation (R80). -/
def Opcode.bits : Opcode → BitVec 4
  | .tick => 0x1
  | .rxb => 0x2
  | .poll => 0x3
  | .srsp => 0x4
  | .lenc => 0x5
  | .ctrl => 0x6
  | .rst => 0x7

/-- The operation of an OPC value; opcodes 0x0 and 0x8 to 0xF name none (R81). -/
def Opcode.ofBits (b : BitVec 4) : Option Opcode :=
  if b = 0x1 then some .tick
  else if b = 0x2 then some .rxb
  else if b = 0x3 then some .poll
  else if b = 0x4 then some .srsp
  else if b = 0x5 then some .lenc
  else if b = 0x6 then some .ctrl
  else if b = 0x7 then some .rst
  else none

/-- The format each operation uses (R71). -/
def Opcode.format : Opcode → Format
  | .tick => .z
  | .rxb => .b
  | .poll => .z
  | .srsp => .s
  | .lenc => .l
  | .ctrl => .c
  | .rst => .z

/-- The reserved-zero bits of each format, as a mask (the last column of R71). -/
def Format.reserved : Format → OpWord
  | .z => 0x0FFFFFFFFFFFFFFF  -- w[59:0]
  | .b => 0x0FFFFFFFFFFFFF00  -- w[59:8]
  | .s => 0x0FFFFFFFFFFFFFFE  -- w[59:1]
  | .l => 0x0FFFFF8000000000  -- w[59:39]
  | .c => 0x0FFFFFFFFFFFFFFC  -- w[59:2]

/-- OPC = w[63:60] (R70). -/
def OpWord.opcodeBits (w : OpWord) : BitVec 4 := w.extractLsb' 60 4

/-- The word names an operation and its reserved bits are 0 (R70, R81). -/
def OpWord.wellFormed (w : OpWord) : Bool :=
  match Opcode.ofBits (OpWord.opcodeBits w) with
  | none => false
  | some o => decide (w &&& o.format.reserved = 0)

end Sys2Proof
end

