-- ==== Sys2Proof/Decode.lean ====
section
/-!
DEFINITION. The decoder (30_encoding.md R70, R71, R76, R80, R81): total on every 64-bit word, rejecting
by name. After it the encoder, from the same table of formats, and the opcode map of R80 as rows of
match and mask.
-/

namespace Sys2Proof

/-- Why a word is not an operation (R81). Both are the spec's one reason ReservedEncoding. -/
inductive DecodeReject where
  /-- The opcode is 0x0 or 0x8 to 0xF. -/
  | reservedOpcode
  /-- A reserved-zero bit of the format is 1. -/
  | reservedBits
deriving DecidableEq, Repr

/-- The operation an opcode and the word's fields give, each field taken as it is (R71, R76). -/
def instrOfFields (o : Opcode) (w : OpWord) : Instr :=
  match o with
  | .tick => .tick
  | .rxb => .rxb (w.extractLsb' 0 8)
  | .poll => .poll
  | .srsp => .srsp (w.getLsbD 0)
  | .lenc => .lenc (w.extractLsb' 0 32) (w.extractLsb' 32 2) (w.extractLsb' 34 1) (w.extractLsb' 35 4)
  | .ctrl => .ctrl (w.getLsbD 0) (w.getLsbD 1)
  | .rst => .rst

/-- The decoder: opcode first, then the reserved bits of its format (R70, R81). -/
def decode (w : OpWord) : Except DecodeReject Instr :=
  match Opcode.ofBits (OpWord.opcodeBits w) with
  | none => .error .reservedOpcode
  | some o => if w &&& o.format.reserved = 0 then .ok (instrOfFields o w) else .error .reservedBits

/-- The opcode of an operation (R80). -/
def opcodeOf : Instr → Opcode
  | .tick => .tick
  | .rxb _ => .rxb
  | .poll => .poll
  | .srsp _ => .srsp
  | .lenc _ _ _ _ => .lenc
  | .ctrl _ _ => .ctrl
  | .rst => .rst

/-- An opcode in bits 63 to 60, the bits below it 0 (R70). -/
def opcodeWord (o : Opcode) : OpWord := o.bits.setWidth 64 <<< 60

/-- The fields of an operation at their bit positions (R71). -/
def fieldBits : Instr → OpWord
  | .tick => 0
  | .rxb d => d.setWidth 64
  | .poll => 0
  | .srsp ok => (BitVec.ofBool ok).setWidth 64
  | .lenc baud par stop2 dbits =>
    baud.setWidth 64 ||| par.setWidth 64 <<< 32 ||| stop2.setWidth 64 <<< 34 ||| dbits.setWidth 64 <<< 35
  | .ctrl dtr rts => (BitVec.ofBool dtr).setWidth 64 ||| (BitVec.ofBool rts).setWidth 64 <<< 1
  | .rst => 0

/-- The encoder: the one word of an operation (R70, R71, R89). -/
def encode (i : Instr) : OpWord := opcodeWord (opcodeOf i) ||| fieldBits i

/-- One row of the opcode map (R80). -/
structure OpcodeRow where
  opcode : Opcode
  matchBits : OpWord
  maskBits : OpWord
deriving DecidableEq, Repr

/-- The opcode map, as R80 and spec/opcode_table.json give it. -/
def opcodeTable : List OpcodeRow :=
  [⟨.tick, 0x1000000000000000, 0xFFFFFFFFFFFFFFFF⟩,
   ⟨.rxb, 0x2000000000000000, 0xFFFFFFFFFFFFFF00⟩,
   ⟨.poll, 0x3000000000000000, 0xFFFFFFFFFFFFFFFF⟩,
   ⟨.srsp, 0x4000000000000000, 0xFFFFFFFFFFFFFFFE⟩,
   ⟨.lenc, 0x5000000000000000, 0xFFFFFF8000000000⟩,
   ⟨.ctrl, 0x6000000000000000, 0xFFFFFFFFFFFFFFFC⟩,
   ⟨.rst, 0x7000000000000000, 0xFFFFFFFFFFFFFFFF⟩]

/-- The word is the operation of this row: `(w & mask) == match` (R80). -/
def OpcodeRow.matches (r : OpcodeRow) (w : OpWord) : Bool := decide (w &&& r.maskBits = r.matchBits)

/-- What the decoder reads from an operation word whose low `nbits` bits are those of `w`; there is one
length, 64 bits (R70), so more bits than that are no operation. -/
def decodeTableWord (nbits w : Nat) : Option Instr :=
  if 64 < nbits then none
  else
    match decode (BitVec.ofNat 64 (w % 2 ^ nbits)) with
    | .ok i => some i
    | .error _ => none

end Sys2Proof
end

