-- ==== Sys2Proof/Machine/Memory.lean ====
section
/-!
DEFINITION. A memory as a list of (address, byte) cells in one canonical form: addresses strictly
rising, one cell for each byte that has been written. An address that is not listed holds no value
(`Memory.byte?` answers none): for FIFO storage that is 00_scope.md R10, and the two memories outside
the block put the free power-on byte there (U13; log 8, log 9). 16-bit accesses are built from bytes
here and nowhere else (20_memory.md R53, R67).
-/

namespace Sys2Proof.Machine

/-- A memory: the bytes written to it. -/
abbrev Memory := List Host.Cell

/-- The byte at an address, none where nothing has been written. -/
def Memory.byte? : Memory → Nat → Option Byte
  | [], _ => none
  | c :: m, a => if c.1 = a then some c.2 else Memory.byte? m a

/-- Write one byte, keeping the canonical form. -/
def Memory.set : Memory → Nat → Byte → Memory
  | [], a, v => [(a, v)]
  | c :: m, a, v =>
    if a < c.1 then (a, v) :: c :: m
    else if c.1 = a then (a, v) :: m
    else c :: Memory.set m a v

/-- The canonical form: addresses strictly rising. -/
abbrev Memory.wf (m : Memory) : Prop := m.Pairwise (fun c d => c.1 < d.1)

/-- The address of v[7:0] of the 16-bit value at `a` (R53; log 10). -/
def loByteAddr (o : ByteOrder) (a : Nat) : Nat :=
  match o with
  | .little => a
  | .big => a + 1

/-- The address of v[15:8] of the 16-bit value at `a` (R53; log 10). -/
def hiByteAddr (o : ByteOrder) (a : Nat) : Nat :=
  match o with
  | .little => a + 1
  | .big => a

/-- The byte at `a` of a memory whose unwritten bytes hold their power-on value (U13). -/
def Memory.byteOr (m : Memory) (powerOn : Nat → Byte) (a : Nat) : Byte := (m.byte? a).getD (powerOn a)

/-- The 16-bit value at `a`, its two bytes combined by the byte order (R53, R67). -/
def Memory.read16 (m : Memory) (o : ByteOrder) (powerOn : Nat → Byte) (a : Nat) : Half :=
  m.byteOr powerOn (hiByteAddr o a) ++ m.byteOr powerOn (loByteAddr o a)

/-- Set the 16-bit location at `a` to `v` and no other byte (R56). -/
def Memory.write16 (m : Memory) (o : ByteOrder) (a : Nat) (v : Half) : Memory :=
  (m.set (loByteAddr o a) (v.extractLsb' 0 8)).set (hiByteAddr o a) (v.extractLsb' 8 8)

end Sys2Proof.Machine
end

