-- ==== Sys2Proof/Machine/State.lean ====
section
/-!
DEFINITION. The state: every field of the state table (10_state.md section 1.1), the two memories
outside the block (R37, R38), the output trace (R40), and the model's own two fields, the build's
parameters and the inputs still to come. All of it is plain data. After it `State.reset`.
-/

namespace Sys2Proof.Machine

/-- BootloaderArmState (R30). Code 0b11 is never held, so it is no value here. -/
inductive HsState where
  | idle
  | armed
  | cancelling
deriving DecidableEq, Repr

/-- slot_sel: the active persistence slot (R31). -/
inductive Slot where
  | modern
  | legacy
deriving DecidableEq, Repr

/-- The commands to the delayed-reset timer (R40, 41_handshake.md R135). -/
inductive TimerCmd where
  | startArm
  | cancel
  | startAbsorb
deriving DecidableEq, Repr

/-- The events of the output trace, one constructor per row of R40's table. -/
inductive Event where
  | rxOk (b : Byte)
  | rxDrop (b : Byte)
  | txOk (b : Byte)
  | txFail (b : Byte)
  | flush (n : Nat)
  | leFwd (baud : Baud) (par : BitVec 2) (stop2 : BitVec 1) (dbits : BitVec 4)
  | rt (cmd : TimerCmd)
  | pmr (a : Nat) (v : Half)
  | pmw (a : Nat) (v : Half)
  | pgr (a : Nat) (v : Half)
deriving DecidableEq, Repr

/-- What the environment does between operations without issuing one (log 11, log 12). -/
inductive EnvAction where
  /-- The application writes a 16-bit persistence location (60_exceptions.md R218). -/
  | appWrite16 (a : Nat) (v : Half)
  /-- The application writes one byte of persistence memory (20_memory.md R67). -/
  | appWrite8 (a : Nat) (b : Byte)
  /-- Program memory changes at one word (20_memory.md R65). -/
  | progWrite16 (a : Nat) (v : Half)
  /-- The delayed-reset timer's countdown ends (41_handshake.md R129, R135). -/
  | countdownEnds
deriving DecidableEq, Repr

/-- One input of a run: an operation word (30_encoding.md R70) or an action of the environment. -/
inductive Input where
  | word (w : OpWord)
  | env (e : EnvAction)
deriving DecidableEq, Repr

/-- Why a run stops with a fault. -/
inductive Fault where
  /-- Raised by TICK, RXB, POLL, SRSP, LENC and CTRL when the enabling condition of 30_encoding.md R83
  is false (60_exceptions.md R203). Safe: the spec gives this fault, and the run has no good end. -/
  | protocolViolation
  /-- Raised by peek, from SRSP, with count = 0 (40_ring_buffer.md R104). Safe: the spec gives this
  fault and says it is never reached (R162). -/
  | peekEmpty
  /-- Raised by remove, from SRSP, with count = 0 (40_ring_buffer.md R105). Safe, as peekEmpty. -/
  | removeEmpty
  /-- Raised by peek and remove, from SRSP, on a storage entry that holds no value (00_scope.md R10).
  Safe: the spec gives this fault and says it is never reached (40_ring_buffer.md R108). -/
  | entryHoldsNoValue
deriving DecidableEq, Repr

/-- Why a run is refused. -/
inductive Refusal where
  /-- No meaning written for this mnemonic. Raised by `exec` alone; no arm raises it in this model. Safe. -/
  | notModelled (mnemonic : String)
  /-- ReservedEncoding: the word is not an operation (30_encoding.md R81, 60_exceptions.md R204). Raised
  before any enabling check (R205). Safe: the spec gives this refusal. -/
  | reservedEncoding
  /-- ConfigRefused: the parameters break 00_scope.md R5; raised at elaboration, no block is built
  (60_exceptions.md R204). Safe: the spec gives this refusal. -/
  | configRefused
  /-- The input is no action the environment has: it writes an address of more than PAW (or PGAW) bits, a
  location that does not exist (20_memory.md R50; DESIGN CHOICE, log 11). Raised by `envStep`, never by an
  operation; a refusal, because R203 closes the list of faults. Safe: it only stops. -/
  | noSuchAddress
deriving DecidableEq, Repr

/-- The state of the machine. -/
structure State where
  /-- The build's parameters (00_scope.md section 5; the model's own field, log 3). -/
  cfg : Config
  /-- store[0..N-1]; an entry not listed holds no value (R20, 00_scope.md R10). -/
  store : Memory
  /-- wr_ptr, PW bits (R21; log 6). -/
  wrPtr : Nat
  /-- rd_ptr, PW bits (R21). -/
  rdPtr : Nat
  /-- since_rx, TW bits (R27). -/
  sinceRx : Nat
  /-- timeout, TW bits (R28). -/
  timeout : Nat
  /-- flush_rem, PW bits (R29). -/
  flushRem : Nat
  /-- hs_state (R30). -/
  hsState : HsState
  /-- slot_sel (R31). -/
  slotSel : Slot
  /-- backup (R32). -/
  backup : Half
  /-- cur_baud (R33). -/
  curBaud : Baud
  /-- prev_baud (R34). -/
  prevBaud : Baud
  /-- cur_dtr, true when asserted (R35). -/
  curDtr : Bool
  /-- reset_seen, model only (R36). -/
  resetSeen : Bool
  /-- Persistence memory, outside the block (R37). -/
  pmem : Memory
  /-- Program memory, outside the block (R38). -/
  prog : Memory
  /-- The output trace, oldest event first (R40). -/
  trace : List Event
  /-- The inputs still to come, next one first (the model's own field, log 1). -/
  inputs : List Input
deriving DecidableEq, Repr

/-- The state after the first RST of a block built with `c`, over memories nothing has written since
power-on: the reset column of section 1.1 (R42), the probe's result and its PGR event (R121, R230). -/
def State.resetFor (c : Config) : State :=
  let v := Memory.read16 [] c.byteOrder Config.progPowerOn c.sigAddr
  { cfg := c
    store := []
    wrPtr := 0
    rdPtr := 0
    sinceRx := 0
    timeout := c.timeoutInit
    flushRem := 0
    hsState := .idle
    slotSel := if v = c.sigValue then .modern else .legacy
    backup := 0x0000
    curBaud := 0
    prevBaud := 0
    curDtr := false
    resetSeen := true
    pmem := []
    prog := []
    trace := [.pgr c.sigAddr v]
    inputs := [] }

/-- The machine right after reset, in the build whose OPEN parameters are free (log 4, log 7). -/
def State.reset : State := State.resetFor Config.unspecified

end Sys2Proof.Machine
end

