-- ==== Sys2Proof/Machine/Operands.lean ====
section
/-!
DEFINITION. Operand forms and the arithmetic of 00_scope.md R8, R9: wrapping and saturating to a width,
the names of the line-encoding codes (30_encoding.md R76, R77), and the codes of slot_sel, hs_state and
the timer commands (10_state.md R30, R31; 30_encoding.md R85).
-/

namespace Sys2Proof.Machine

/-- wrap_W(v) = v mod 2^W (R8). -/
def wrapW (w v : Nat) : Nat := v % 2 ^ w

/-- sat_W(v) = min(v, 2^W - 1) (R8). -/
def satW (w v : Nat) : Nat := min v (2 ^ w - 1)

/-- wrap_W(a - b): the difference of two W-bit pointers modulo 2^W (R9, R23). -/
def wrapSubW (w a b : Nat) : Nat := wrapW w (a + 2 ^ w - b % 2 ^ w)

/-- The storage index of a pointer: its low K bits (10_state.md R21, 20_memory.md R51). -/
def storeIndex (c : Config) (p : Nat) : Nat := wrapW c.k p

/-- A pointer advanced by one modulo 2^PW (R51). -/
def nextPtr (c : Config) (p : Nat) : Nat := wrapW c.pw (p + 1)

/-- The parities PAR names (R77). -/
inductive Parity where
  | none
  | odd
  | even
deriving DecidableEq, Repr

/-- The parity a PAR code names; code 3 names none the source knows, and no rule checks it (R77). -/
def parityOfCode (par : BitVec 2) : Option Parity :=
  if par = 0 then some .none else if par = 1 then some .odd else if par = 2 then some .even else none

/-- The number of stop bits a STOP2 code names (R77). -/
def stopBitsOfCode (stop2 : BitVec 1) : Nat := stop2.toNat + 1

/-- hs_state as its 2-bit register (R30). -/
def HsState.code : HsState → BitVec 2
  | .idle => 0b00
  | .armed => 0b01
  | .cancelling => 0b10

/-- slot_sel as its 1-bit register (R31). -/
def Slot.code : Slot → BitVec 1
  | .modern => 0
  | .legacy => 1

/-- rt_cmd of a command; 00 is no command (30_encoding.md R85). -/
def TimerCmd.code : TimerCmd → BitVec 2
  | .startArm => 0b01
  | .cancel => 0b10
  | .startAbsorb => 0b11

/-- The error outcomes of 60_exceptions.md R201: labels for an observer, held in no register. -/
inductive ErrorOutcome where
  | rxOverflow
  | sendFail
  | lineFieldUnsupported
  | probeSignatureAbsent
  | deviceReset
deriving DecidableEq, Repr

/-- The codes of R201. -/
def ErrorOutcome.code : ErrorOutcome → Nat
  | .rxOverflow => 1
  | .sendFail => 2
  | .lineFieldUnsupported => 3
  | .probeSignatureAbsent => 4
  | .deviceReset => 5

/-- The error outcome an event records, if any: codes 3 and 5 leave nothing in the block (R201). -/
def errorOutcome (c : Config) : Event → Option ErrorOutcome
  | .rxDrop _ => some .rxOverflow
  | .txFail _ => some .sendFail
  | .pgr _ v => if v = c.sigValue then none else some .probeSignatureAbsent
  | .rxOk _ => none
  | .txOk _ => none
  | .flush _ => none
  | .leFwd _ _ _ _ => none
  | .rt _ => none
  | .pmr _ _ => none
  | .pmw _ _ => none

/-- slot_addr (41_handshake.md R122). -/
def slotAddr (c : Config) : Slot → Nat
  | .modern => c.modernSlotAddr
  | .legacy => c.legacySlotAddr

end Sys2Proof.Machine
end

