-- ==== Sys2Proof/Machine/Flags.lean ====
section
/-!
DEFINITION. The derived values of 10_state.md section 4: the element count (R23, 40_ring_buffer.md
R101), the six status flags (R25) and the status outputs (R41). No operation writes one; each is a
function of the state.
-/

namespace Sys2Proof.Machine

/-- count = wrap_PW(wr_ptr - rd_ptr) (R23, R101). -/
def State.count (s : State) : Nat := wrapSubW s.cfg.pw s.wrPtr s.rdPtr

/-- empty (R25, R107). -/
def State.isEmpty (s : State) : Bool := decide (s.count = 0)

/-- full (R25, R103). -/
def State.isFull (s : State) : Bool := decide (s.count = s.cfg.capacity)

/-- half_exceeded: count > N/2, strictly (R25). -/
def State.halfExceeded (s : State) : Bool := decide (s.cfg.capacity / 2 < s.count)

/-- timeout_due: count > 0 and since_rx >= timeout (R25, 90 C1). -/
def State.timeoutDue (s : State) : Bool := decide (0 < s.count) && decide (s.timeout ≤ s.sinceRx)

/-- flush_cond (R25). -/
def State.flushCond (s : State) : Bool := s.timeoutDue || s.halfExceeded

/-- busy (R25). -/
def State.busy (s : State) : Bool := decide (0 < s.flushRem)

/-- The byte at the read pointer, none where that entry holds no value (R41, R104). -/
def State.headByte? (s : State) : Option Byte := s.store.byte? (storeIndex s.cfg s.rdPtr)

/-- The status outputs of R41, with hs_state and slot_sel as their codes (30_encoding.md R85). -/
structure StatusOutputs where
  count : Nat
  empty : Bool
  full : Bool
  busy : Bool
  txValid : Bool
  /-- none where tx_data is don't-care (log 16). -/
  txData : Option Byte
  pollReady : Bool
  hsState : BitVec 2
  slotSel : BitVec 1
deriving DecidableEq, Repr

/-- The status outputs of a state (R41). -/
def State.statusOutputs (s : State) : StatusOutputs where
  count := s.count
  empty := s.isEmpty
  full := s.isFull
  busy := s.busy
  txValid := s.busy
  txData := if s.busy then s.headByte? else none
  pollReady := !s.busy
  hsState := s.hsState.code
  slotSel := s.slotSel.code

end Sys2Proof.Machine
end

