-- ==== Sys2Proof/Machine/Ops.lean ====
section
/-!
DEFINITION. The named operations the meanings are built from: emitting an event (10_state.md R40), the
accesses to the two memories outside the block (20_memory.md R55, R56, R58), the ring-buffer primitives
(40_ring_buffer.md R102, R104, R105) and the enabling conditions (30_encoding.md R83). The block takes
no exception and returns from none (60_exceptions.md R200, R208, R209), so there is no operation here
for either.
-/

namespace Sys2Proof.Machine

/-- The three outcomes of a step of this machine. -/
abbrev Result := Host.Outcome State Fault Refusal

/-- emit E: append an event to the output trace (R8, R40). -/
def State.emit (s : State) (e : Event) : State := { s with trace := s.trace ++ [e] }

/-! ### The memories outside the block -/

/-- The 16-bit value of persistence location `a` (R37, R53). -/
def State.pmem16 (s : State) (a : Nat) : Half := s.pmem.read16 s.cfg.byteOrder Config.pmemPowerOn a

/-- The 16-bit word of program memory at `a` (R38, R53). -/
def State.prog16 (s : State) (a : Nat) : Half := s.prog.read16 s.cfg.byteOrder Config.progPowerOn a

/-- The state after MemRead(a, 2): the event PMR; the value read is `s.pmem16 a` (R55). -/
def memRead (a : Nat) (s : State) : State := s.emit (.pmr a (s.pmem16 a))

/-- MemWrite(a, 2, v): location `a` becomes `v`, and the event PMW (R56; untorn, R57, log 13). -/
def memWrite (a : Nat) (v : Half) (s : State) : State :=
  State.emit { s with pmem := s.pmem.write16 s.cfg.byteOrder a v } (.pmw a v)

/-- The state after ProgRead(a, 2): the event PGR; the word read is `s.prog16 a` (R58). -/
def progRead (a : Nat) (s : State) : State := s.emit (.pgr a (s.prog16 a))

/-! ### The ring-buffer primitives -/

/-- insert(b): whether the byte was taken, and the state (R102). -/
def fifoInsert (b : Byte) (s : State) : Bool × State :=
  if s.isFull then (false, s)
  else
    (true, { s with store := s.store.set (storeIndex s.cfg s.wrPtr) b, wrPtr := nextPtr s.cfg s.wrPtr })

/-- peek(): the oldest byte; it changes no state (R104). -/
def fifoPeek (s : State) : Except Fault Byte :=
  if s.isEmpty then .error .peekEmpty
  else
    match s.headByte? with
    | none => .error .entryHoldsNoValue
    | some b => .ok b

/-- remove(): the oldest byte, and the state with rd_ptr advanced; the entry keeps its byte (R105). -/
def fifoRemove (s : State) : Except Fault (Byte × State) :=
  if s.isEmpty then .error .removeEmpty
  else
    match s.headByte? with
    | none => .error .entryHoldsNoValue
    | some b => .ok (b, { s with rdPtr := nextPtr s.cfg s.rdPtr })

/-- Go on with what a primitive answers, or stop with its fault. -/
def orFault {α : Type} (r : Except Fault α) (next : α → Result) : Result :=
  match r with
  | .error f => .fault f
  | .ok a => next a

/-- Go on from a next state, or stop as the first part stopped. -/
def andThen (r : Result) (f : State → Result) : Result :=
  match r with
  | .next s => f s
  | .fault e => .fault e
  | .refused e => .refused e

/-! ### Enabling conditions -/

/-- hs_state is Idle or Armed: the condition of the two host events (R83). -/
def State.handshakeReady (s : State) : Bool := decide (s.hsState = .idle) || decide (s.hsState = .armed)

/-- The enabling conditions, the table of R83. -/
def enabled (i : Instr) (s : State) : Bool :=
  match i with
  | .rst => true
  | .tick => s.resetSeen
  | .rxb _ => s.resetSeen
  | .poll => s.resetSeen && decide (s.flushRem = 0)
  | .srsp _ => s.resetSeen && decide (0 < s.flushRem)
  | .lenc _ _ _ _ => s.resetSeen && s.handshakeReady
  | .ctrl _ _ => s.resetSeen && s.handshakeReady

/-- `require`: the operation happens where it is enabled; elsewhere the run has the fault
ProtocolViolation and nothing of the operation happens (R83, 60_exceptions.md R203, R205; log 2). -/
def require (i : Instr) (s : State) (body : Result) : Result :=
  if enabled i s then body else .fault .protocolViolation

end Sys2Proof.Machine
end

