-- ==== Sys2Proof/Machine/FlushScheduler.lean ====
section
/-!
DEFINITION. The FIFO and timing operations TICK, RXB, POLL and SRSP (42_flush_scheduler.md).
-/

namespace Sys2Proof.Machine

/-- TICK: since_rx counts one tick, saturating (R151). -/
def execTick (s : State) : Result :=
  require .tick s (.next { s with sinceRx := satW s.cfg.tw (s.sinceRx + 1) })

/-- The timing half of RXB before the insert: a byte that finds the buffer non-empty sets the timeout to
twice the gap before it, saturating; one that finds it empty leaves it (R153, R155, 90 C4). -/
def rxbTimeout (s : State) : State :=
  if s.isEmpty then s else { s with timeout := satW s.cfg.tw (2 * s.sinceRx) }

/-- What RXB does once enabled: timeout, insert, since_rx, event (R153). -/
def rxbEffect (d : Byte) (s : State) : State :=
  let r := fifoInsert d (rxbTimeout s)
  State.emit { r.2 with sinceRx := 0 } (if r.1 then .rxOk d else .rxDrop d)

/-- RXB: a received byte (R153). -/
def execRxb (d : Byte) (s : State) : Result :=
  require (.rxb d) s (.next (rxbEffect d s))

/-- What POLL does once enabled: where the flush condition holds, the budget is the count (R156). -/
def pollEffect (s : State) : State :=
  if s.flushCond then State.emit { s with flushRem := s.count } (.flush s.count) else s

/-- POLL: the scheduler loop's step 2 (R156). -/
def execPoll (s : State) : Result :=
  require .poll s (.next (pollEffect s))

/-- The answer "sent" to the attempt of byte `b`: remove it, one less in the budget (R158). -/
def sendDone (b : Byte) (s : State) : Result :=
  orFault (fifoRemove s) fun r => .next (State.emit { r.2 with flushRem := r.2.flushRem - 1 } (.txOk b))

/-- The answer "failed" to the attempt of byte `b`: the flush ends, nothing is removed (R158, R159). -/
def sendFailed (b : Byte) (s : State) : Result :=
  .next (State.emit { s with flushRem := 0 } (.txFail b))

/-- SRSP: the USB channel's answer to the outstanding send attempt (R158). -/
def execSrsp (ok : Bool) (s : State) : Result :=
  require (.srsp ok) s (orFault (fifoPeek s) fun b => if ok then sendDone b s else sendFailed b s)

end Sys2Proof.Machine
end

