-- ==== Sys2Proof/Machine/Handshake.lean ====
section
/-!
DEFINITION. The bootloader-entry handshake: arm, cancel and the two host events LENC and CTRL
(41_handshake.md). Arm and cancel are each two halves, because the cycle level performs the second in
the next clock cycle (30_encoding.md R87).
-/

namespace Sys2Proof.Machine

/-- arm_cond(): the current baud is exactly 1200 and DTR is deasserted (R123). -/
def State.armCond (s : State) : Bool := decide (s.curBaud = armBaud) && !s.curDtr

/-- arm(), first half: a fresh arm with the legacy slot saves the value about to be displaced; a re-arm
saves nothing (R127, R128, 90 C2). -/
def armCapture (s : State) : State :=
  if s.hsState = .idle ∧ s.slotSel = .legacy then
    { memRead s.cfg.legacySlotAddr s with backup := s.pmem16 s.cfg.legacySlotAddr }
  else s

/-- arm(), second half: the sentinel into the active slot, START_ARM, Armed (R127). -/
def armCommit (s : State) : State :=
  { (memWrite (slotAddr s.cfg s.slotSel) s.cfg.magicKey s).emit (.rt .startArm) with hsState := .armed }

/-- arm() (R127). -/
def arm (s : State) : State := armCommit (armCapture s)

/-- cancel(), first half: Cancelling, CANCEL (R130). -/
def cancelBegin (s : State) : State := State.emit { s with hsState := .cancelling } (.rt .cancel)

/-- What cancel writes to the active slot: the backup for the legacy slot, zero for the modern (R130). -/
def State.clearValue (s : State) : Half :=
  match s.slotSel with
  | .legacy => s.backup
  | .modern => 0x0000

/-- cancel(), second half: START_ABSORB, the slot restored or zeroed, Idle (R130). -/
def cancelCommit (s : State) : State :=
  { memWrite (slotAddr s.cfg s.slotSel) s.clearValue (s.emit (.rt .startAbsorb)) with hsState := .idle }

/-- cancel() (R130). -/
def cancel (s : State) : State := cancelCommit (cancelBegin s)

/-- LENC before its decision: the forward to the translator, then the baud registers (R124). -/
def lencLatch (baud : Baud) (par : BitVec 2) (stop2 : BitVec 1) (dbits : BitVec 4) (s : State) : State :=
  { s.emit (.leFwd baud par stop2 dbits) with prevBaud := s.curBaud, curBaud := baud }

/-- Whether a line-encoding event takes the arm path (R124). -/
def State.lencArms (s : State) : Bool := s.cfg.leEventArms && s.armCond

/-- CTRL before its decision: DTR is held, RTS is not (R125, R35). -/
def ctrlLatch (dtr : Bool) (s : State) : State := { s with curDtr := dtr }

/-- Exactly one of arm() and cancel() (R126). -/
def armOrCancel (arms : Bool) (s : State) : State := if arms then arm s else cancel s

/-- What LENC does once enabled (R124). -/
def lencEffect (baud : Baud) (par : BitVec 2) (stop2 : BitVec 1) (dbits : BitVec 4) (s : State) : State :=
  armOrCancel (lencLatch baud par stop2 dbits s).lencArms (lencLatch baud par stop2 dbits s)

/-- What CTRL does once enabled (R125). -/
def ctrlEffect (dtr : Bool) (s : State) : State :=
  armOrCancel (ctrlLatch dtr s).armCond (ctrlLatch dtr s)

/-- LENC: a line-encoding event (R124). -/
def execLenc (baud : Baud) (par : BitVec 2) (stop2 : BitVec 1) (dbits : BitVec 4) (s : State) : Result :=
  require (.lenc baud par stop2 dbits) s (.next (lencEffect baud par stop2 dbits s))

/-- CTRL: a control-line event; RTS is carried and read by nothing (R125, R76). -/
def execCtrl (dtr : Bool) (rts : Bool) (s : State) : Result :=
  require (.ctrl dtr rts) s (.next (ctrlEffect dtr s))

end Sys2Proof.Machine
end

