-- ==== Sys2Proof/Machine/Reset.lean ====
section
/-!
DEFINITION. RST (70_reset_and_hazards.md R230) with its probe (41_handshake.md R121), and the
elaboration of a block from its parameters (00_scope.md R5, R6; 40_ring_buffer.md R100).
-/

namespace Sys2Proof.Machine

/-- Every register but slot_sel and reset_seen takes its reset value (R230, 10_state.md R42). -/
def resetRegisters (s : State) : State :=
  { s with
    wrPtr := 0
    rdPtr := 0
    store := []
    sinceRx := 0
    timeout := s.cfg.timeoutInit
    flushRem := 0
    hsState := .idle
    backup := 0x0000
    curBaud := 0
    prevBaud := 0
    curDtr := false }

/-- The slot the word at SIG_ADDR selects (R121). -/
def State.probedSlot (s : State) : Slot :=
  if s.prog16 s.cfg.sigAddr = s.cfg.sigValue then .modern else .legacy

/-- probe() (R121). -/
def probe (s : State) : State := { progRead s.cfg.sigAddr s with slotSel := s.probedSlot }

/-- RST: always enabled; the memories outside the block are not touched (R230). -/
def execRst (s : State) : Result :=
  .next { probe (resetRegisters s) with resetSeen := true }

/-- The block at power-on: it has these parameters and has seen no reset; `u` stands for everything the
spec calls unknown before the first RST, registers, memories and inputs (R231, U12, U13; log 7). -/
def powerOn (c : Config) (u : State) : State :=
  { u with cfg := c, resetSeen := false, trace := [] }

/-- Building a block: parameters that break R5 are refused and no block is built (R5, R204; log 3). -/
def elaborate (c : Config) (u : State) : Result :=
  if c.valid then .next (powerOn c u) else .refused .configRefused

end Sys2Proof.Machine
end

