-- ==== Sys2Proof/Machine/Dispatch.lean ====
section
/-!
DEFINITION. The meaning of each operation: one arm per constructor of Instr.
-/

namespace Sys2Proof.Machine

def exec (i : Instr) (s : State) : Host.Outcome State Fault Refusal :=
  match i with
  | .tick => Sys2Proof.Machine.execTick s
  | .rxb d => Sys2Proof.Machine.execRxb d s
  | .poll => Sys2Proof.Machine.execPoll s
  | .srsp ok => Sys2Proof.Machine.execSrsp ok s
  | .lenc baud par stop2 dbits => Sys2Proof.Machine.execLenc baud par stop2 dbits s
  | .ctrl dtr rts => Sys2Proof.Machine.execCtrl dtr rts s
  | .rst => Sys2Proof.Machine.execRst s

end Sys2Proof.Machine
end

