-- ==== Sys2Proof/Machine/Environment.lean ====
section
/-!
DEFINITION. The block's surroundings as far as its rules read or write them: running an operation word
(30_encoding.md R81, 60_exceptions.md R203 to R205), the application's and the platform's writes to the
memories outside (20_memory.md R65, R67; 60_exceptions.md R218), and the delayed-reset timer the block
commands (41_handshake.md R129, R135).
-/

namespace Sys2Proof.Machine

/-- Run one operation word: decoded first, so that a word that is not an operation is refused before
any enabling check (R205). -/
def runWord (w : OpWord) (s : State) : Result :=
  match decode w with
  | .error _ => .refused .reservedEncoding
  | .ok i => exec i s

/-- Run operations one after another, each on the state the one before it left (00_scope.md R3, 20_memory.md
R61), up to the first that stops (60_exceptions.md R203). -/
def runOps : List Instr → State → Result
  | [], s => .next s
  | i :: rest, s => andThen (exec i s) (runOps rest)

/-- A countdown of the delayed-reset timer (R135). -/
inductive Countdown where
  | arm
  | absorb
deriving DecidableEq, Repr

/-- The countdown a command leaves running, whatever ran before: last writer wins (R135, R128). -/
def TimerCmd.countdown : TimerCmd → Option Countdown
  | .startArm => some .arm
  | .cancel => none
  | .startAbsorb => some .absorb

/-- The countdown the timer was last told to run, by the RT events of a trace (R135; log 12). -/
def countdownAfter (t : List Event) : Option Countdown :=
  t.foldl (fun r e => match e with
    | .rt c => c.countdown
    | _ => r) none

/-- T_ARM or T_ABSORB in milliseconds; no operation reads it (R135, R251). -/
def Countdown.durationMs (c : Config) : Countdown → Nat
  | .arm => c.tArm
  | .absorb => c.tAbsorb

/-- Whether the end of a countdown resets the device: START_ARM's does, START_ABSORB's where
ABSORB_EXPIRY_RESETS is true (R135, 92 D20). -/
def Countdown.resetsDevice (c : Config) : Countdown → Bool
  | .arm => true
  | .absorb => c.absorbExpiryResets

/-- The end of the running countdown: a device reset, which reaches the block as RST, or nothing
(R129, R135). -/
def countdownEnd (s : State) : Result :=
  match countdownAfter s.trace with
  | none => .next s
  | some c => if c.resetsDevice s.cfg then execRst s else .next s

/-- An action of the environment between two operations. A write to a location that does not exist is no
action and is refused (R218, 20_memory.md R65, R67; log 11). -/
def envStep (e : EnvAction) (s : State) : Result :=
  match e with
  | .appWrite16 a v =>
    if a < 2 ^ s.cfg.paw then .next { s with pmem := s.pmem.write16 s.cfg.byteOrder a v }
    else .refused .noSuchAddress
  | .appWrite8 a b =>
    if a < 2 ^ s.cfg.paw then .next { s with pmem := s.pmem.set a b } else .refused .noSuchAddress
  | .progWrite16 a v =>
    if a < 2 ^ s.cfg.pgaw then .next { s with prog := s.prog.write16 s.cfg.byteOrder a v }
    else .refused .noSuchAddress
  | .countdownEnds => countdownEnd s

/-- Take one input. -/
def takeInput (i : Input) (s : State) : Result :=
  match i with
  | .word w => runWord w s
  | .env e => envStep e s

/-- Take the next input; with none to come nothing happens, for no unit of the block advances on its own
(10_state.md R22; log 1). -/
def takeNext (s : State) : Result :=
  match s.inputs with
  | [] => .next s
  | i :: rest => takeInput i { s with inputs := rest }

end Sys2Proof.Machine
end

