-- ==== Sys2Proof/Machine/Step.lean ====
section
/-!
DEFINITION. The step of the machine, and an operation word placed where the step takes its next input.
-/

namespace Sys2Proof.Machine

/-- One step: the next input is taken (00_scope.md R3; log 1). -/
def step (s : State) : Host.Outcome State Fault Refusal := takeNext s

/-- The operation word whose low `nbits` bits are those of `w`, as the next input of `s` (log 1). -/
def State.withFetchWord (s : State) (nbits w : Nat) : State :=
  { s with inputs := .word (BitVec.ofNat 64 (w % 2 ^ nbits)) :: s.inputs }

end Sys2Proof.Machine
end

