-- ==== Sys2Proof/Machine/Assembler.lean ====
section
/-!
DEFINITION. The assembler syntax and the pseudo-operations (30_encoding.md R89, R90): from the
characters of one line to the operation words it stands for. What R89 leaves open of the text's form
is log 15.
-/

namespace Sys2Proof.Machine

/-- One line of source: an operation of R89 or a pseudo-operation of R90, operands as written. -/
inductive AsmLine where
  | tick
  | rxb (d : Nat)
  | poll
  | srsp (ok : Bool)
  | lenc (baud : Nat) (par : BitVec 2) (stop2 : BitVec 1) (dbits : Nat)
  | ctrl (dtr : Nat) (rts : Nat)
  | rst
  | wait (n : Nat)
  | rxg (n : Nat) (d : Nat)
  | sendOk (n : Nat)
  | openPort (baud : Nat)
  | close
  | touch1200
deriving DecidableEq, Repr

/-- RXB d, an assembly error where d has no 8-bit field (R89). -/
def asmRxb (d : Nat) : Option Instr := if d < 2 ^ 8 then some (.rxb (BitVec.ofNat 8 d)) else none

/-- LENC, an assembly error where the baud or the data bits have no field (R89). -/
def asmLenc (baud : Nat) (par : BitVec 2) (stop2 : BitVec 1) (dbits : Nat) : Option Instr :=
  if baud < 2 ^ 32 ∧ dbits < 2 ^ 4 then
    some (.lenc (BitVec.ofNat 32 baud) par stop2 (BitVec.ofNat 4 dbits))
  else none

/-- CTRL, an assembly error where an operand is neither 0 nor 1 (R89). -/
def asmCtrl (dtr rts : Nat) : Option Instr :=
  if dtr < 2 ∧ rts < 2 then some (.ctrl (dtr == 1) (rts == 1)) else none

/-- The operations a line stands for, none on an assembly error (R89, R90). -/
def AsmLine.expand : AsmLine → Option (List Instr)
  | .tick => some [.tick]
  | .rxb d => (asmRxb d).map fun i => [i]
  | .poll => some [.poll]
  | .srsp ok => some [.srsp ok]
  | .lenc baud par stop2 dbits => (asmLenc baud par stop2 dbits).map fun i => [i]
  | .ctrl dtr rts => (asmCtrl dtr rts).map fun i => [i]
  | .rst => some [.rst]
  | .wait n => some (List.replicate n .tick)
  | .rxg n d => (asmRxb d).map fun i => List.replicate n .tick ++ [i]
  | .sendOk n => some (List.replicate n (.srsp true))
  | .openPort baud => (asmLenc baud 0 0 8).map fun i => [i, .ctrl true false]
  | .close => some [.ctrl false false]
  | .touch1200 => some [.lenc armBaud 0 0 8, .ctrl true false, .ctrl false false]

/-- The words a line stands for (R89, R90). -/
def AsmLine.words (l : AsmLine) : Option (List OpWord) := l.expand.map fun is => is.map encode

/-! ### Reading the characters of a line -/

/-- A blank (log 15). -/
def isBlank (c : Char) : Bool := c == ' ' || c == '\t'

/-- Without the blanks at both ends. -/
def trimBlanks (cs : List Char) : List Char := ((cs.dropWhile isBlank).reverse.dropWhile isBlank).reverse

/-- The text before the comment (R89). -/
def withoutComment (cs : List Char) : List Char := cs.takeWhile (· != ';')

/-- The pieces between commas. -/
def splitCommas : List Char → List (List Char)
  | [] => [[]]
  | c :: cs =>
    if c == ',' then [] :: splitCommas cs
    else
      match splitCommas cs with
      | [] => [[c]]
      | piece :: rest => (c :: piece) :: rest

/-- The value of one digit in a base. -/
def digitValue (base : Nat) (c : Char) : Option Nat :=
  let v := if '0'.toNat ≤ c.toNat ∧ c.toNat ≤ '9'.toNat then c.toNat - '0'.toNat
    else if 'a'.toNat ≤ c.toNat ∧ c.toNat ≤ 'f'.toNat then c.toNat - 'a'.toNat + 10
    else base
  if v < base then some v else none

/-- The value of a run of digits, most significant first. -/
def digitsValue (base : Nat) (acc : Nat) : List Char → Option Nat
  | [] => some acc
  | c :: cs =>
    match digitValue base c with
    | none => none
    | some v => digitsValue base (acc * base + v) cs

/-- A number, decimal or 0x hexadecimal, in lower-case characters (R89). -/
def numberValue (cs : List Char) : Option Nat :=
  match cs with
  | [] => none
  | '0' :: 'x' :: d :: ds => digitsValue 16 0 (d :: ds)
  | d :: ds => digitsValue 10 0 (d :: ds)

/-- PAR of a parity keyword (R89). -/
def parityKeyword (cs : List Char) : Option (BitVec 2) :=
  if cs = ['n', 'o', 'n', 'e'] then some 0
  else if cs = ['o', 'd', 'd'] then some 1
  else if cs = ['e', 'v', 'e', 'n'] then some 2
  else if cs = ['p', '3'] then some 3
  else none

/-- STOP2 of the stop operand: 0 for `1`, 1 for `2` (R89). Only the characters R89 shows are taken; the same
numbers written otherwise (0x1, 02) are an assembly error (DESIGN CHOICE, log 15). -/
def stopKeyword (cs : List Char) : Option (BitVec 1) :=
  if cs = ['1'] then some 0 else if cs = ['2'] then some 1 else none

/-- OK of SRSP's operand (R89). -/
def okKeyword (cs : List Char) : Option Bool :=
  if cs = ['o', 'k'] then some true else if cs = ['f', 'a', 'i', 'l'] then some false else none

/-- A mnemonic with no operand (R89, R90). -/
def parseNoOperand (m : List Char) : Option AsmLine :=
  if m = ['t', 'i', 'c', 'k'] then some .tick
  else if m = ['p', 'o', 'l', 'l'] then some .poll
  else if m = ['r', 's', 't'] then some .rst
  else if m = ['c', 'l', 'o', 's', 'e'] then some .close
  else if m = ['t', 'o', 'u', 'c', 'h', '1', '2', '0', '0'] then some .touch1200
  else none

/-- A mnemonic with one operand (R89, R90). -/
def parseOneOperand (m a : List Char) : Option AsmLine :=
  if m = ['r', 'x', 'b'] then (numberValue a).map .rxb
  else if m = ['s', 'r', 's', 'p'] then (okKeyword a).map .srsp
  else if m = ['w', 'a', 'i', 't'] then (numberValue a).map .wait
  else if m = ['s', 'e', 'n', 'd', 'o', 'k'] then (numberValue a).map .sendOk
  else if m = ['o', 'p', 'e', 'n'] then (numberValue a).map .openPort
  else none

/-- A mnemonic with two operands (R89, R90). -/
def parseTwoOperands (m a b : List Char) : Option AsmLine :=
  if m = ['c', 't', 'r', 'l'] then (numberValue a).bind fun x => (numberValue b).map fun y => .ctrl x y
  else if m = ['r', 'x', 'g'] then (numberValue a).bind fun x => (numberValue b).map fun y => .rxg x y
  else none

/-- LENC's four operands (R89). -/
def parseLenc (m a b c d : List Char) : Option AsmLine :=
  if m = ['l', 'e', 'n', 'c'] then
    (numberValue a).bind fun baud => (parityKeyword b).bind fun par =>
      (stopKeyword c).bind fun stop2 => (numberValue d).map fun dbits => .lenc baud par stop2 dbits
  else none

/-- A mnemonic and its operands (R89, R90). -/
def parseOperands (m : List Char) (operands : List (List Char)) : Option AsmLine :=
  match operands with
  | [] => parseNoOperand m
  | [a] => parseOneOperand m a
  | [a, b] => parseTwoOperands m a b
  | [a, b, c, d] => parseLenc m a b c d
  | _ => none

/-- The words of one line of source text, none on an assembly error; a line with nothing but blanks and
a comment stands for no word. The line is read in one case, so that a hexadecimal number may begin with 0X
as well as 0x, which R89 does not name (R89; DESIGN CHOICE, log 15). -/
def assembleLine (line : List Char) : Option (List OpWord) :=
  let text := trimBlanks ((withoutComment line).map Char.toLower)
  let mnemonic := text.takeWhile fun c => !isBlank c
  let rest := trimBlanks (text.dropWhile fun c => !isBlank c)
  if text = [] then some []
  else (parseOperands mnemonic (if rest = [] then [] else (splitCommas rest).map trimBlanks)).bind
    AsmLine.words

/-- The words of a program, one line after another (R89). -/
def assemble : List (List Char) → Option (List OpWord)
  | [] => some []
  | l :: ls => (assembleLine l).bind fun ws => (assemble ls).map fun rest => ws ++ rest

end Sys2Proof.Machine
end

