-- ==== Sys2Proof/Machine/Cycle.lean ====
section
/-!
DEFINITION. The cycle mapping (30_encoding.md section 6): one clock cycle of the block as a function of
its input ports, built from the same operations as `exec`. The ports are R85, the order inside a cycle
R84, the two cycles of a host event R87, the cycles of a reset R88. A signal whose enabling condition is
false is ignored (60_exceptions.md R203). The operation level (Machine/Step.lean) is the normative one
(00_scope.md R3); this machine refines it (log 14).
-/

namespace Sys2Proof.Machine

/-- The input ports of R85. The read data of the two memories come from the state. -/
structure PortsIn where
  rst : Bool
  tick : Bool
  rxValid : Bool
  rxData : Byte
  pollValid : Bool
  txDone : Bool
  txOk : Bool
  evValid : Bool
  /-- false a line-encoding event, true a control-line event. -/
  evKind : Bool
  evBaud : Baud
  evPar : BitVec 2
  evStop2 : BitVec 1
  evDbits : BitVec 4
  evDtr : Bool
  evRts : Bool
deriving DecidableEq, Repr

/-- No signal on any port. -/
def PortsIn.quiet : PortsIn where
  rst := false
  tick := false
  rxValid := false
  rxData := 0
  pollValid := false
  txDone := false
  txOk := false
  evValid := false
  evKind := false
  evBaud := 0
  evPar := 0
  evStop2 := 0
  evDbits := 0
  evDtr := false
  evRts := false

/-- The phase of a host event (R87): none in progress, or the second cycle of its arm or cancel path. -/
inductive HostPhase where
  | none
  | armSecond
  | cancelSecond
deriving DecidableEq, Repr

/-- A state at cycle level: the state of the block, the phase of a host event and whether the probe of a
reset is still to run (R87, R88). -/
structure CycleState where
  s : State
  phase : HostPhase
  probeDue : Bool
deriving DecidableEq, Repr

/-- A presented operation is accepted where it is enabled, and ignored elsewhere (R83, R203). -/
def present (i : Instr) (valid : Bool) (s : State) : Result :=
  if valid && enabled i s then exec i s else .next s

/-- The consumer operation of a cycle: SRSP while a send is outstanding, POLL otherwise (R84, R85). -/
def consumerPart (p : PortsIn) (s : State) : Result :=
  if s.busy then present (.srsp p.txOk) p.txDone s else present .poll p.pollValid s

/-- The part of a cycle before RXB: TICK, then the consumer operation (R84). -/
def beforeRxb (p : PortsIn) (s : State) : Result :=
  andThen (present .tick p.tick s) (consumerPart p)

/-- The FIFO and timing operations a cycle accepts on a state past its first reset, in the order of R84. -/
def PortsIn.fifoOps (p : PortsIn) (s : State) : List Instr :=
  (if p.tick = true then [.tick] else []) ++
    (if 0 < s.flushRem then (if p.txDone = true then [.srsp p.txOk] else [])
      else (if p.pollValid = true then [.poll] else [])) ++
    (if p.rxValid = true then [.rxb p.rxData] else [])

/-- The operation the event port presents: LENC or CTRL by ev_kind (R85). -/
def PortsIn.hostOp (p : PortsIn) : Instr :=
  if p.evKind = true then .ctrl p.evDtr p.evRts else .lenc p.evBaud p.evPar p.evStop2 p.evDbits

/-- The FIFO and timing part of a cycle: TICK, consumer operation, RXB (R84). -/
def fifoPart (p : PortsIn) (s : State) : Result :=
  andThen (beforeRxb p s) (present (.rxb p.rxData) p.rxValid)

/-- The state once the host event accepted one cycle earlier, if any, has its second cycle (R87). -/
def CycleState.hostDone (c : CycleState) : State :=
  match c.phase with
  | .none => c.s
  | .armSecond => armCommit c.s
  | .cancelSecond => cancelCommit c.s

/-- The state after what an earlier cycle left for this one: the second half of a host event (R87), or the
probe in the first cycle after rst falls (R88). Both belong to an operation accepted before this cycle, so
they come before the operations of this cycle, and the run is one of operations (R3, R84; DEDUCED,
log 14). -/
def CycleState.begun (c : CycleState) : State := if c.probeDue then probe c.hostDone else c.hostDone

/-- ev_ready in a cycle with rst low: no host event in its second cycle, the probe done, and the event
enabled (R87, R88, R83). -/
def CycleState.evReady (c : CycleState) : Bool :=
  decide (c.phase = .none) && !c.probeDue && c.s.resetSeen && c.s.handshakeReady

/-- The fields of an accepted host event are latched (R87, R124, R125). -/
def hostLatch (p : PortsIn) (s : State) : State :=
  if p.evKind then ctrlLatch p.evDtr s else lencLatch p.evBaud p.evPar p.evStop2 p.evDbits s

/-- Whether an accepted host event takes the arm path (R87, R124, R125). -/
def hostArms (p : PortsIn) (s : State) : Bool :=
  if p.evKind then (hostLatch p s).armCond else (hostLatch p s).lencArms

/-- Cycle 1 of a host event (R87). -/
def hostFirst (p : PortsIn) (s : State) : State × HostPhase :=
  if hostArms p s then (armCapture (hostLatch p s), .armSecond)
  else (cancelBegin (hostLatch p s), .cancelSecond)

/-- The host-event part of a cycle: the first cycle of an accepted event (R84, R87). -/
def hostPart (p : PortsIn) (c : CycleState) (s : State) : State × HostPhase :=
  if p.evValid && c.evReady then hostFirst p s else (s, .none)

/-- A cycle with rst high: every register but slot_sel takes its reset value, and every other operation
the cycle presents is discarded (R84, R88). A host event accepted one cycle earlier is no operation of this
cycle: R87 gives its second cycle no exception, so its slot write and its START_ARM or START_ABSORB are
made, and then the registers are reset (DEDUCED, log 17). -/
def resetCycle (c : CycleState) : CycleState where
  s := { resetRegisters c.hostDone with resetSeen := true }
  phase := .none
  probeDue := true

/-- One clock cycle (R84 to R88). -/
def cycle (p : PortsIn) (c : CycleState) : Host.Outcome CycleState Fault Refusal :=
  if p.rst then .next (resetCycle c)
  else
    match fifoPart p c.begun with
    | .fault e => .fault e
    | .refused e => .refused e
    | .next s =>
      .next { s := (hostPart p c s).1, phase := (hostPart p c s).2, probeDue := false }

/-- The operations a cycle begins, in the order of R84: RST alone on the first cycle with rst high (the
further ones belong to the same RST, R88); else the FIFO operations and then an accepted host event. -/
def CycleState.operations (c : CycleState) (p : PortsIn) : List Instr :=
  if p.rst then (if c.probeDue then [] else [.rst])
  else p.fifoOps c.s ++ (if p.evValid && c.evReady then [p.hostOp] else [])

/-- The output ports of R85 in one cycle; an output that carries nothing in the cycle is none
(log 16). -/
structure PortsOut where
  /-- rx_ok, in the cycle of an accepted RXB. -/
  rxOk : Option Bool
  /-- ev_ready; none in a cycle with rst high, for which the spec gives no value: R88 gives ev_ready from
  the probe cycle on (DEDUCED, log 16). -/
  evReady : Option Bool
  /-- le_baud, le_par, le_stop2 and le_dbits, where le_valid is 1. -/
  le : Option (Baud × BitVec 2 × BitVec 1 × BitVec 4)
  rtCmd : BitVec 2
  /-- pm_addr, where pm_re is 1. -/
  pmRead : Option Nat
  /-- pm_addr and pm_wdata, where pm_we is 1. -/
  pmWrite : Option (Nat × Half)
  /-- pg_addr, where pg_re is 1. -/
  pgRead : Option Nat
  /-- poll_ready, tx_valid, tx_data and the status ports (10_state.md R41). -/
  status : StatusOutputs
deriving DecidableEq, Repr

/-- A host event is accepted in this cycle (R84, R87). -/
def hostAccepted (p : PortsIn) (c : CycleState) : Bool := !p.rst && p.evValid && c.evReady

/-- rx_ok: whether the byte of an accepted RXB is inserted; it sees a removal of its own cycle (R84). -/
def rxOkOutput (p : PortsIn) (c : CycleState) : Option Bool :=
  if p.rst then none
  else
    match beforeRxb p c.begun with
    | .next s => if p.rxValid && enabled (.rxb p.rxData) s then some (!s.isFull) else none
    | .fault _ => none
    | .refused _ => none

/-- rt_cmd (R85, R87). The second cycle of a host event has its command also where rst is high (log 17). -/
def rtOutput (p : PortsIn) (c : CycleState) : BitVec 2 :=
  match c.phase with
  | .armSecond => TimerCmd.startArm.code
  | .cancelSecond => TimerCmd.startAbsorb.code
  | .none => if hostAccepted p c && !hostArms p c.s then TimerCmd.cancel.code else 0b00

/-- The persistence-memory write of a cycle (R87): the second cycle of a host event makes its write also
where rst is high (log 17). -/
def pmWriteOutput (c : CycleState) : Option (Nat × Half) :=
  match c.phase with
  | .armSecond => some (slotAddr c.s.cfg c.s.slotSel, c.s.cfg.magicKey)
  | .cancelSecond => some (slotAddr c.s.cfg c.s.slotSel, c.s.clearValue)
  | .none => none

/-- The persistence-memory read of a cycle: cycle 1 of a fresh arm with the legacy slot (R87). -/
def pmReadOutput (p : PortsIn) (c : CycleState) : Option Nat :=
  if hostAccepted p c && hostArms p c.s && decide (c.s.hsState = .idle) && decide (c.s.slotSel = .legacy)
  then some c.s.cfg.legacySlotAddr else none

/-- The output ports in one cycle (R85 to R88). -/
def cycleOutputs (p : PortsIn) (c : CycleState) : PortsOut where
  rxOk := rxOkOutput p c
  evReady := if p.rst then none else some c.evReady
  le := if hostAccepted p c && !p.evKind then some (p.evBaud, p.evPar, p.evStop2, p.evDbits) else none
  rtCmd := rtOutput p c
  pmRead := pmReadOutput p c
  pmWrite := pmWriteOutput c
  pgRead := if !p.rst && c.probeDue then some c.s.cfg.sigAddr else none
  status := c.s.statusOutputs

end Sys2Proof.Machine
end

