-- ==== Sys2Proof/Safety.lean ====
section
/-!
DEFINITION. What counts as a safe run: the invariants the rules state at every operation boundary
(10_state.md R24, R29, R30; 40_ring_buffer.md R108; 42_flush_scheduler.md R162), the FIFO's contents as
a queue, and what a trace says was received and sent (R109, R163).
-/

namespace Sys2Proof.Machine

/-- An entry between the pointers holds a value: every occupied entry was written (R108). -/
def State.occupiedWritten (s : State) : Prop :=
  ∀ j < s.count, s.store.byte? (storeIndex s.cfg (s.rdPtr + j)) ≠ none

/-- What the registers and the storage satisfy at every operation boundary since the first RST: widths
(section 1.1), count at most N (R24), flush_rem at most count (R29, R162), hs_state Idle or Armed (R30,
R134), storage entries 0 to N-1 (R20), occupied entries written (R108). -/
structure State.RegInv (s : State) : Prop where
  wrPtr_lt : s.wrPtr < 2 ^ s.cfg.pw
  rdPtr_lt : s.rdPtr < 2 ^ s.cfg.pw
  sinceRx_lt : s.sinceRx < 2 ^ s.cfg.tw
  timeout_lt : s.timeout < 2 ^ s.cfg.tw
  count_le : s.count ≤ s.cfg.capacity
  flushRem_le : s.flushRem ≤ s.count
  hsState_ne : s.hsState ≠ .cancelling
  store_wf : s.store.wf
  store_lt : ∀ c ∈ s.store, c.1 < s.cfg.capacity
  occupied : s.occupiedWritten

/-- The invariant of the machine. Before the first RST nothing is known of the registers (R231). -/
structure State.Inv (s : State) : Prop where
  cfg_valid : s.cfg.valid = true
  pmem_wf : s.pmem.wf
  prog_wf : s.prog.wf
  regs : s.resetSeen = true → s.RegInv

/-- The invariant of the cycle machine from the first reset on: what the cycle finds once the work left for
it is done meets the invariant of the machine (R87, R88), and a probe is due only right after a reset
cycle. -/
structure CycleState.Inv (c : CycleState) : Prop where
  begun_inv : c.begun.Inv
  resetSeen : c.s.resetSeen = true
  probeDue : c.probeDue = true → resetCycle c = c

/-- The bytes in the buffer, oldest first (R109). -/
def State.fifo (s : State) : List Byte :=
  (List.range s.count).filterMap fun j => s.store.byte? (storeIndex s.cfg (s.rdPtr + j))

/-- The bytes accepted since the last RST, by the RXOK events; RST is what emits PGR (R163, R230). -/
def receivedSinceReset (t : List Event) : List Byte :=
  t.foldl (fun r e => match e with
    | .pgr _ _ => []
    | .rxOk b => r ++ [b]
    | _ => r) []

/-- The bytes sent since the last RST, by the TXOK events (R163). -/
def sentSinceReset (t : List Event) : List Byte :=
  t.foldl (fun r e => match e with
    | .pgr _ _ => []
    | .txOk b => r ++ [b]
    | _ => r) []

/-- What was received since the last RST is what was sent since, then what is still in the buffer:
no byte lost, reordered or repeated (R109, R163). -/
def State.NoLoss (s : State) : Prop :=
  s.resetSeen = true → receivedSinceReset s.trace = sentSinceReset s.trace ++ s.fifo

/-- No flush in progress after a reset (60_exceptions.md R221). -/
def State.quiescent (s : State) : Bool := s.resetSeen && decide (s.flushRem = 0)

/-- A step that does not stop on the FIFO: it never meets PeekEmpty, RemoveEmpty or an entry without a
value (R108, R162). -/
def fifoSafe (r : Result) : Prop :=
  r ≠ .fault .peekEmpty ∧ r ≠ .fault .removeEmpty ∧ r ≠ .fault .entryHoldsNoValue

/-! ### The results of arm and cancel, field by field, in the terms of 41_handshake.md -/

/-- Every byte of persistence memory outside the 16-bit location at `a` reads in `t` as in `s`. That the
location is the bytes `a` and `a + 1` is 20_memory.md R53, and at the topmost address the model's choice
(log 10). -/
def samePmemOutside (a : Nat) (s t : State) : Prop :=
  ∀ b, b ≠ a → b ≠ a + 1 → t.pmem.byte? b = s.pmem.byte? b

/-- `t` is `s` after arm() (R127, R128): the backup is captured by a fresh arm with the legacy slot
alone, the active slot holds the sentinel, and nothing else but hs_state and the trace changes. -/
structure ArmResult (s t : State) : Prop where
  hsState : t.hsState = .armed
  backup : t.backup = if s.hsState = .idle ∧ s.slotSel = .legacy then s.pmem16 s.cfg.legacySlotAddr else s.backup
  slot : t.pmem16 (slotAddr s.cfg s.slotSel) = s.cfg.magicKey
  others : samePmemOutside (slotAddr s.cfg s.slotSel) s t
  trace : t.trace = s.trace ++
    (if s.hsState = .idle ∧ s.slotSel = .legacy then
      [.pmr s.cfg.legacySlotAddr (s.pmem16 s.cfg.legacySlotAddr)] else []) ++
    [.pmw (slotAddr s.cfg s.slotSel) s.cfg.magicKey, .rt .startArm]
  frame : { t with hsState := s.hsState, backup := s.backup, pmem := s.pmem, trace := s.trace } = s

/-- `t` is `s` after cancel() (R130, R131): the active slot holds the backup (LEGACY) or zero (MODERN),
and nothing else but hs_state and the trace changes. -/
structure CancelResult (s t : State) : Prop where
  hsState : t.hsState = .idle
  slot : t.pmem16 (slotAddr s.cfg s.slotSel) = if s.slotSel = .legacy then s.backup else 0x0000
  others : samePmemOutside (slotAddr s.cfg s.slotSel) s t
  trace : t.trace = s.trace ++ [.rt .cancel, .rt .startAbsorb,
    .pmw (slotAddr s.cfg s.slotSel) (if s.slotSel = .legacy then s.backup else 0x0000)]
  frame : { t with hsState := s.hsState, pmem := s.pmem, trace := s.trace } = s

end Sys2Proof.Machine
end

