-- ==== Sys2Proof/Certificates/Slice0/Obligations.lean ====
section
/-!
DEFINITION. The statements for the provers. Each docstring names the rules of spec/ it formalises. A
result stated as `exec i s = .next { s with … }`, or by a clause `{ t with … } = s`, states the frame
too: every field not named is unchanged. Where a docstring ends with what the spec marks as its own
decision (92_eei_decisions.md, or "[decision: …]" in the rule) or as its own inference ("[derived: …]" in
the rule), the statement rests on it and its basis is 'derived'.
-/

open Sys2Proof Sys2Proof.Machine

/-! ### Encoding (30_encoding.md) -/

/-- Decoding the word of an operation gives the operation back, for every operation and every value of
every field (R70, R71, R76, R80). The spec marks as its own decision D3, D39. -/
def Obligations.DecodeOfEncodeIsTheOperation : Prop :=
  ∀ i : Instr, decode (encode i) = .ok i

/-- A word that decodes is the one word of its operation: no two words mean the same (R70, R71). The spec
marks as its own decision D3. -/
def Obligations.DecodedWordIsItsEncoding : Prop :=
  ∀ (w : OpWord) (i : Instr), decode w = .ok i → encode i = w

/-- The decoder reads a word as the operation of a row of the opcode map exactly when the word matches
the row's mask and match (R80). The spec marks as its own decision D3. -/
def Obligations.DecodeFollowsOpcodeMap : Prop :=
  ∀ r ∈ opcodeTable, ∀ w : OpWord,
    w &&& r.maskBits = r.matchBits ↔ ∃ i, decode w = .ok i ∧ opcodeOf i = r.opcode

/-- No word matches two rows of the opcode map (R80). The spec marks as its own decision D3. -/
def Obligations.OpcodeRowsNeverOverlap : Prop :=
  ∀ r₁ ∈ opcodeTable, ∀ r₂ ∈ opcodeTable, ∀ w : OpWord,
    w &&& r₁.maskBits = r₁.matchBits → w &&& r₂.maskBits = r₂.matchBits → r₁ = r₂

/-- Running a word is refused with ReservedEncoding exactly when its opcode is 0x0 or 0x8 to 0xF or a
reserved-zero bit of its format is 1, whatever the state (R81). The spec marks as its own decision D3,
D31. -/
def Obligations.ReservedWordsAreRefused : Prop :=
  ∀ (w : OpWord) (s : State),
    runWord w s = .refused .reservedEncoding ↔
      ((w.extractLsb' 60 4).toNat = 0 ∨ 8 ≤ (w.extractLsb' 60 4).toNat ∨
        ∃ o, Opcode.ofBits (w.extractLsb' 60 4) = some o ∧ w &&& o.format.reserved ≠ 0)

/-- Words the spec writes out decode to the operations it says (R89, 95_test_vectors.md section 8.2). The
spec marks as its own decision D3. -/
def Obligations.SpecExampleWordsDecode : Prop :=
  decode 0x1000000000000000 = .ok .tick ∧
  decode 0x2000000000000041 = .ok (.rxb 0x41) ∧
  decode 0x3000000000000000 = .ok .poll ∧
  decode 0x4000000000000001 = .ok (.srsp true) ∧
  decode 0x5000003E0001C200 = .ok (.lenc 115200 2 1 7) ∧
  decode 0x6000000000000001 = .ok (.ctrl true false) ∧
  decode 0x7000000000000000 = .ok .rst

/-! ### The step -/

/-- A step whose next input is a word that decodes runs that operation, on the state with the input taken
(R3; the list of inputs is the model's own, log 1). The spec marks as its own decision D2. -/
def Obligations.StepRunsDecodedOperation : Prop :=
  ∀ (s : State) (w : OpWord) (rest : List Input) (i : Instr),
    s.inputs = .word w :: rest → decode w = .ok i → step s = exec i { s with inputs := rest }

/-- With no input to come nothing changes: no unit advances on its own (R22; log 1). The spec marks as
its own decision D30. -/
def Obligations.StepWithNoInputChangesNothing : Prop :=
  ∀ s : State, s.inputs = [] → step s = .next s

/-- An operation has the fault ProtocolViolation exactly when its enabling condition is false (R83, R203,
R205). The spec marks as its own decision D13, D31, D40. -/
def Obligations.DisabledIsProtocolViolation : Prop :=
  ∀ (i : Instr) (s : State),
    exec i s = .fault .protocolViolation ↔
      match i with
      | .rst => False
      | .tick => s.resetSeen = false
      | .rxb _ => s.resetSeen = false
      | .poll => s.resetSeen = false ∨ 0 < s.flushRem
      | .srsp _ => s.resetSeen = false ∨ s.flushRem = 0
      | .lenc _ _ _ _ => s.resetSeen = false ∨ s.hsState = .cancelling
      | .ctrl _ _ => s.resetSeen = false ∨ s.hsState = .cancelling

/-- In every state that meets the invariant every enabled operation completes; in particular every SRSP
finds a byte to peek (R83, R162, R166). The spec marks as its own decision D13, D40 and as its own
inference R162. -/
def Obligations.EnabledOperationsComplete : Prop :=
  ∀ (i : Instr) (s : State), s.Inv → enabled i s = true → ∃ t, exec i s = .next t

/-- No step from a state that meets the invariant meets PeekEmpty, RemoveEmpty or a storage entry that
holds no value (R108, R162). The spec marks as its own inference R108, R162. -/
def Obligations.NoStepMeetsAnEmptyBuffer : Prop :=
  ∀ s : State, s.Inv → fifoSafe (step s)

/-! ### TICK, RXB, POLL, SRSP (42_flush_scheduler.md) -/

/-- TICK adds one to since_rx, saturating at 2^TW - 1, and changes nothing else; before the first RST it
is ProtocolViolation (R151). The spec marks as its own decision D6, D7. -/
def Obligations.TickSaturatesSinceRx : Prop :=
  ∀ s : State,
    (s.resetSeen = true →
      exec .tick s = .next { s with sinceRx := min (s.sinceRx + 1) (2 ^ s.cfg.tw - 1) }) ∧
    (s.resetSeen = false → exec .tick s = .fault .protocolViolation)

/-- RXB: a byte that finds the buffer non-empty sets timeout to twice since_rx, saturating; since_rx
becomes 0; the byte is written at the write pointer, which advances, with RXOK, or with a full buffer is
dropped with RXDROP and storage and pointer stay. Nothing else changes. Before the first RST it is
ProtocolViolation (R153, R102). The spec marks as its own decision D8, D10. -/
def Obligations.RxbSetsTimeoutAndInsertsOrDrops : Prop :=
  ∀ (d : Byte) (s : State),
    (s.resetSeen = true → ∃ t, exec (.rxb d) s = .next t ∧
      t.timeout = (if 0 < s.count then min (2 * s.sinceRx) (2 ^ s.cfg.tw - 1) else s.timeout) ∧
      t.sinceRx = 0 ∧
      (if s.count = 2 ^ s.cfg.k then
        t.store = s.store ∧ t.wrPtr = s.wrPtr ∧ t.trace = s.trace ++ [.rxDrop d]
      else
        t.store.byte? (s.wrPtr % 2 ^ s.cfg.k) = some d ∧
        (∀ a, a ≠ s.wrPtr % 2 ^ s.cfg.k → t.store.byte? a = s.store.byte? a) ∧
        t.wrPtr = (s.wrPtr + 1) % 2 ^ (s.cfg.k + 1) ∧ t.trace = s.trace ++ [.rxOk d]) ∧
      { t with timeout := s.timeout, sinceRx := s.sinceRx, store := s.store, wrPtr := s.wrPtr,
               trace := s.trace } = s) ∧
    (s.resetSeen = false → exec (.rxb d) s = .fault .protocolViolation)

/-- POLL with no flush in progress: where the buffer is non-empty and since_rx has reached timeout, or
count is above N/2, flush_rem becomes count with FLUSH(count); elsewhere nothing changes. Before the
first RST and during a flush it is ProtocolViolation (R156). The spec marks as its own decision D11, D12.
-/
def Obligations.PollStartsFlushWhenDueOrHalf : Prop :=
  ∀ s : State,
    (s.resetSeen = true → s.flushRem = 0 →
      exec .poll s = .next
        (if (0 < s.count ∧ s.timeout ≤ s.sinceRx) ∨ 2 ^ s.cfg.k / 2 < s.count then
          { s with flushRem := s.count, trace := s.trace ++ [.flush s.count] }
        else s)) ∧
    (s.resetSeen = false ∨ 0 < s.flushRem → exec .poll s = .fault .protocolViolation)

/-- SRSP with a send outstanding and a byte `b` at the head: "sent" advances the read pointer, takes one
from the budget and emits TXOK(b); "failed" ends the flush with TXFAIL(b) and removes nothing. Nothing
else changes. With no send outstanding it is ProtocolViolation (R158). Its word is opcode 0x4 with OK in
bit 0 (R71). The spec marks as its own decision D3. -/
def Obligations.SrspRemovesOrEndsFlush : Prop :=
  ∀ (ok : Bool) (s : State),
    runWord (0x4000000000000000 ||| (if ok = true then 1 else 0)) s = exec (.srsp ok) s ∧
    (∀ b, s.resetSeen = true → 0 < s.flushRem → 0 < s.count →
      s.store.byte? (s.rdPtr % 2 ^ s.cfg.k) = some b →
      exec (.srsp ok) s = .next
        (if ok = true then
          { s with rdPtr := (s.rdPtr + 1) % 2 ^ (s.cfg.k + 1), flushRem := s.flushRem - 1,
                   trace := s.trace ++ [.txOk b] }
        else { s with flushRem := 0, trace := s.trace ++ [.txFail b] })) ∧
    (s.resetSeen = false ∨ s.flushRem = 0 → exec (.srsp ok) s = .fault .protocolViolation)

/-- An SRSP that reached an empty buffer would be PeekEmpty, a fault the model records and no run meets
(R203; NoStepMeetsAnEmptyBuffer). The spec marks as its own decision D31, D40. -/
def Obligations.SrspOnAnEmptyBufferIsPeekEmpty : Prop :=
  ∀ (ok : Bool) (s : State), s.count = 0 → s.resetSeen = true → 0 < s.flushRem →
    exec (.srsp ok) s = .fault .peekEmpty

/-! ### The ring buffer as a queue (40_ring_buffer.md) -/

/-- count is the difference of the two pointers modulo 2^PW, in every state; and it is 0 to N in every
state that meets the invariant (R23). -/
def Obligations.CountIsThePointerDifference : Prop :=
  ∀ s : State,
    (s.count : Int) = ((s.wrPtr : Int) - (s.rdPtr : Int)) % (2 : Int) ^ (s.cfg.k + 1) ∧
    (s.Inv → s.resetSeen = true → s.count ≤ 2 ^ s.cfg.k)

/-- insert: a full buffer answers false and changes nothing; otherwise the entry at the write pointer
holds the byte, the pointer advances modulo 2^PW, and nothing else changes (R102, R111). -/
def Obligations.InsertWritesOneEntryOrDrops : Prop :=
  ∀ (b : Byte) (s : State),
    if s.count = 2 ^ s.cfg.k then fifoInsert b s = (false, s)
    else ∃ t, fifoInsert b s = (true, t) ∧
      t.store.byte? (s.wrPtr % 2 ^ s.cfg.k) = some b ∧
      (∀ a, a ≠ s.wrPtr % 2 ^ s.cfg.k → t.store.byte? a = s.store.byte? a) ∧
      t.wrPtr = (s.wrPtr + 1) % 2 ^ (s.cfg.k + 1) ∧
      { t with store := s.store, wrPtr := s.wrPtr } = s

/-- peek and then remove answer the same byte, and remove lowers count by one (R110, R105). The spec
marks as its own inference R110. -/
def Obligations.PeekThenRemoveGivesTheSameByte : Prop :=
  ∀ s : State, s.Inv → s.resetSeen = true → 0 < s.count →
    ∃ b t, fifoPeek s = .ok b ∧ fifoRemove s = .ok (b, t) ∧ t.count + 1 = s.count ∧
      { t with rdPtr := s.rdPtr } = s

/-- peek on an empty buffer is PeekEmpty; elsewhere it answers the byte at the read pointer, without
removing it, and an insert that comes between two peeks does not change the answer (R104). -/
def Obligations.PeekAnswersTheOldestByte : Prop :=
  ∀ s : State,
    (s.count = 0 → fifoPeek s = .error .peekEmpty) ∧
    (∀ b, 0 < s.count → s.store.byte? (s.rdPtr % 2 ^ s.cfg.k) = some b → fifoPeek s = .ok b) ∧
    (∀ d, s.Inv → s.resetSeen = true → 0 < s.count → fifoPeek (fifoInsert d s).2 = fifoPeek s)

/-- remove on an empty buffer is RemoveEmpty; elsewhere it answers the byte at the read pointer and
advances that pointer modulo 2^PW, the entry keeping its byte; nothing else changes (R105). -/
def Obligations.RemoveTakesTheOldestByte : Prop :=
  ∀ s : State,
    (s.count = 0 → fifoRemove s = .error .removeEmpty) ∧
    (∀ b, 0 < s.count → s.store.byte? (s.rdPtr % 2 ^ s.cfg.k) = some b →
      fifoRemove s = .ok (b, { s with rdPtr := (s.rdPtr + 1) % 2 ^ (s.cfg.k + 1) }))

/-- RXB puts its byte at the end of the queue, or leaves the queue as it is when it is full (R109, R111).
The spec marks as its own inference R109, R111. -/
def Obligations.RxbAppendsToTheQueue : Prop :=
  ∀ (d : Byte) (s : State), s.Inv → s.resetSeen = true →
    ∃ t, exec (.rxb d) s = .next t ∧
      t.fifo = if s.count = 2 ^ s.cfg.k then s.fifo else s.fifo ++ [d]

/-- SRSP ok takes the oldest byte of the queue and no other (R109, R158, R163). The spec marks as its own
inference R109, R163. -/
def Obligations.SrspOkTakesTheOldestByte : Prop :=
  ∀ s : State, s.Inv → s.resetSeen = true → 0 < s.flushRem →
    ∃ b t, exec (.srsp true) s = .next t ∧ s.fifo = b :: t.fifo ∧ t.trace = s.trace ++ [.txOk b] ∧
      t.count + 1 = s.count

/-- A flush answered "sent" throughout sends exactly the bytes of its budget, oldest first, and ends
(R161, R163, 95_test_vectors.md section 1.5). The spec marks as its own decision D12 and as its own
inference R163. -/
def Obligations.FlushSendsItsBudgetInOrder : Prop :=
  ∀ s : State, s.Inv → s.resetSeen = true →
    ∃ t, runOps (List.replicate s.flushRem (.srsp true)) s = .next t ∧ t.flushRem = 0 ∧
      t.trace = s.trace ++ (s.fifo.take s.flushRem).map Event.txOk ∧ t.fifo = s.fifo.drop s.flushRem

/-- Every step keeps: received since the last RST = sent since, then still in the buffer (R109, R163).
The spec marks as its own inference R109, R163. -/
def Obligations.StepKeepsNoByteLost : Prop :=
  ∀ s t : State, s.Inv → s.NoLoss → step s = .next t → t.NoLoss

/-- However many steps a run takes and whatever its inputs, the bytes sent since the last RST are the
first of the bytes received since, in the same order (R163). The spec marks as its own inference R163. -/
def Obligations.SentBytesAreTheFirstReceived : Prop :=
  ∀ (n : Nat) (s t : State), s.Inv → s.NoLoss → Sys2Proof.core.run n s = .next t → t.resetSeen = true →
    sentSinceReset t.trace <+: receivedSinceReset t.trace

/-! ### Timing (42_flush_scheduler.md) -/

/-- After an RXB, G ticks and another RXB, timeout is sat(2·G) (R154). The spec marks as its own
inference R154. -/
def Obligations.SteadyStreamSetsTimeoutToTwiceTheGap : Prop :=
  ∀ (g : Nat) (d₁ d₂ : Byte) (s : State), s.Inv → s.resetSeen = true →
    ∃ t, runOps (.rxb d₁ :: (List.replicate g .tick ++ [.rxb d₂])) s = .next t ∧
      t.timeout = min (2 * g) (2 ^ s.cfg.tw - 1)

/-- A buffer that is not empty is flushed by the first POLL after enough ticks of silence, however few
bytes it holds (R155, R165). The spec marks as its own inference R155, R165. -/
def Obligations.SilenceFlushesALoneByte : Prop :=
  ∀ (n : Nat) (s : State), s.Inv → s.resetSeen = true → s.flushRem = 0 → 0 < s.count →
    2 ^ s.cfg.tw - 1 ≤ n →
    ∃ t, runOps (List.replicate n .tick ++ [.poll]) s = .next t ∧ t.flushRem = s.count ∧
      t.trace = s.trace ++ [.flush s.count]

/-- After a failed send in a flush whose condition still holds, the next POLL starts a flush again, with
every byte still queued (R159, R160). The spec marks as its own inference R159, R160. -/
def Obligations.FailedSendIsRetriedByTheNextPoll : Prop :=
  ∀ s : State, s.Inv → s.resetSeen = true → 0 < s.flushRem → s.flushCond = true →
    ∃ t u, exec (.srsp false) s = .next t ∧ t.fifo = s.fifo ∧ t.flushRem = 0 ∧
      exec .poll t = .next u ∧ u.flushRem = s.count ∧ u.fifo = s.fifo

/-! ### LENC, CTRL (41_handshake.md) -/

/-- cancel, from any state: Cancelling while CANCEL is emitted, then START_ABSORB, the active slot
restored from the backup (LEGACY) or zeroed (MODERN), and Idle; nothing else changes (R130). That the
slot is the bytes a and a + 1 is R53, and at the topmost address, where a + 1 is not wrapped, the model's
choice (log 10). The spec marks as its own decision D22. -/
def Obligations.CancelRestoresOrZeroesTheSlot : Prop :=
  ∀ s : State, (cancelBegin s).hsState = .cancelling ∧ CancelResult s (cancel s)

/-- LENC forwards its fields unchanged, shifts the baud registers, and then arms exactly when
LE_EVENT_ARMS, baud 1200 and DTR deasserted hold, and cancels elsewhere. Not enabled, it is
ProtocolViolation (R124; the arm condition is R123, arm R127 and cancel R130). That the slot is the bytes
a and a + 1 and no other byte changes is R53, and at the topmost address the model's choice (log 10). The
spec marks as its own decision D15, D16, D22, D27. -/
def Obligations.LencForwardsThenArmsOrCancels : Prop :=
  ∀ (baud : Baud) (par : BitVec 2) (stop2 : BitVec 1) (dbits : BitVec 4) (s : State),
    (s.resetSeen = true → s.hsState ≠ .cancelling →
      ∃ t, exec (.lenc baud par stop2 dbits) s = .next t ∧
        if s.cfg.leEventArms = true ∧ baud = 1200 ∧ s.curDtr = false then
          ArmResult { s with prevBaud := s.curBaud, curBaud := baud,
                             trace := s.trace ++ [.leFwd baud par stop2 dbits] } t
        else
          CancelResult { s with prevBaud := s.curBaud, curBaud := baud,
                                trace := s.trace ++ [.leFwd baud par stop2 dbits] } t) ∧
    (s.resetSeen = false ∨ s.hsState = .cancelling →
      exec (.lenc baud par stop2 dbits) s = .fault .protocolViolation)

/-- CTRL holds DTR and then arms exactly when the current baud is 1200 and DTR is deasserted, and cancels
elsewhere; RTS affects nothing. Not enabled, it is ProtocolViolation (R125; the arm condition is R123,
arm R127 and cancel R130). Its word is opcode 0x6 with DTR in bit 0 and RTS in bit 1 (R71). That the slot
is the bytes a and a + 1 and no other byte changes is R53, and at the topmost address the model's choice
(log 10). The spec marks as its own decision D3, D15, D16, D22. -/
def Obligations.CtrlHoldsDtrThenArmsOrCancels : Prop :=
  ∀ (dtr rts : Bool) (s : State),
    runWord (0x6000000000000000 ||| (if dtr = true then 1 else 0) ||| (if rts = true then 2 else 0)) s =
      exec (.ctrl dtr rts) s ∧
    (s.resetSeen = true → s.hsState ≠ .cancelling →
      ∃ t, exec (.ctrl dtr rts) s = .next t ∧
        if s.curBaud = 1200 ∧ dtr = false then ArmResult { s with curDtr := dtr } t
        else CancelResult { s with curDtr := dtr } t) ∧
    (s.resetSeen = false ∨ s.hsState = .cancelling →
      exec (.ctrl dtr rts) s = .fault .protocolViolation)

/-- The source's handshake property: from Idle, LENC at 1200 and CTRL with DTR deasserted leave Armed,
the sentinel in the active slot and START_ARM as the last event; a CTRL with DTR asserted right after
leaves Idle and the slot zero (MODERN) or holding the backup (LEGACY), which is the value the slot held
before the arm where the LENC itself armed (R137). The spec marks as its own inference R137. -/
def Obligations.TouchAt1200ArmsAndDtrCancels : Prop :=
  ∀ (par : BitVec 2) (stop2 : BitVec 1) (dbits : BitVec 4) (rts₁ rts₂ : Bool) (s : State),
    s.resetSeen = true → s.hsState = .idle →
    ∃ t u, runOps [.lenc 1200 par stop2 dbits, .ctrl false rts₁] s = .next t ∧
      t.hsState = .armed ∧ t.pmem16 (slotAddr s.cfg s.slotSel) = s.cfg.magicKey ∧
      t.trace.getLast? = some (.rt .startArm) ∧
      exec (.ctrl true rts₂) t = .next u ∧ u.hsState = .idle ∧
      u.pmem16 (slotAddr s.cfg s.slotSel) = (if s.slotSel = .legacy then t.backup else 0x0000) ∧
      (s.slotSel = .legacy → s.cfg.leEventArms = true → s.curDtr = false →
        t.backup = s.pmem16 s.cfg.legacySlotAddr) ∧
      u.trace = t.trace ++ [.rt .cancel, .rt .startAbsorb,
        .pmw (slotAddr s.cfg s.slotSel) (if s.slotSel = .legacy then t.backup else 0x0000)]

/-- A handshake operation commutes with every FIFO operation: one order completes exactly when the other
does; the two leave the same state but for the trace; and each adds the events the two operations emit on
their own, in its own order (R136). The spec marks as its own inference R136. -/
def Obligations.HandshakeCommutesWithFifo : Prop :=
  ∀ (h f : Instr) (s : State),
    (h matches .lenc _ _ _ _ ∨ h matches .ctrl _ _) →
    (f matches .tick ∨ f matches .rxb _ ∨ f matches .poll ∨ f matches .srsp _) →
    ((∃ t, runOps [h, f] s = .next t) ↔ ∃ u, runOps [f, h] s = .next u) ∧
    ∀ t u, runOps [h, f] s = .next t → runOps [f, h] s = .next u →
      { u with trace := t.trace } = t ∧
      ∃ sh sf eh ef, exec h s = .next sh ∧ sh.trace = s.trace ++ eh ∧
        exec f s = .next sf ∧ sf.trace = s.trace ++ ef ∧
        t.trace = s.trace ++ eh ++ ef ∧ u.trace = s.trace ++ ef ++ eh

/-! ### RST, reset and elaboration (70_reset_and_hazards.md, 10_state.md section 1.1) -/

/-- RST completes in every state: every register takes its reset value, slot_sel the probe's result, the
one event is PGR, and neither memory outside the block changes (R230, R121). The spec marks as its own
decision D9, D17, D18, D25, D33, D35. -/
def Obligations.RstGivesTheResetColumnAndProbes : Prop :=
  ∀ s : State, exec .rst s = .next
    { s with
      store := [], wrPtr := 0, rdPtr := 0, sinceRx := 0, timeout := s.cfg.timeoutInit, flushRem := 0,
      hsState := .idle, backup := 0x0000, curBaud := 0, prevBaud := 0, curDtr := false, resetSeen := true,
      slotSel := if s.prog16 s.cfg.sigAddr = s.cfg.sigValue then .modern else .legacy,
      trace := s.trace ++ [.pgr s.cfg.sigAddr (s.prog16 s.cfg.sigAddr)] }

/-- Two RSTs in a row leave the state of one, but for the second PGR event (R230). The spec marks as its
own decision D9, D17, D18, D33, D35. -/
def Obligations.RstTwiceIsRstOnce : Prop :=
  ∀ s : State, ∃ t u, exec .rst s = .next t ∧ exec .rst t = .next u ∧ { u with trace := t.trace } = t

/-- The state after reset is the first RST of a block just built, whatever its registers held before
(R231, R42; that nothing has been written to the memories and no input is to come is the model's choice
of a starting point, log 1, log 7, log 9). The spec marks as its own decision D9, D17, D18, D33, D35,
D40. -/
def Obligations.ResetStateIsTheFirstRst : Prop :=
  ∀ (c : Config) (u : State), c.valid = true → u.pmem = [] → u.prog = [] → u.inputs = [] →
    ∃ p, elaborate c u = .next p ∧ p.resetSeen = false ∧ exec .rst p = .next (State.resetFor c)

/-- The registers after reset, in every build, and the flags they give (R42, R25). The spec marks as its
own decision D9, D17, D18, D33, D35 and as its own inference R25. -/
def Obligations.ResetStateHoldsTheResetColumn : Prop :=
  ∀ c : Config,
    let s := State.resetFor c
    (∀ a, s.store.byte? a = none) ∧ s.wrPtr = 0 ∧ s.rdPtr = 0 ∧ s.sinceRx = 0 ∧
    s.timeout = c.timeoutInit ∧ s.flushRem = 0 ∧ s.hsState = .idle ∧ s.backup = 0x0000 ∧
    s.curBaud = 0 ∧ s.prevBaud = 0 ∧ s.curDtr = false ∧ s.resetSeen = true ∧
    s.slotSel = (if s.prog16 c.sigAddr = c.sigValue then .modern else .legacy) ∧
    s.isEmpty = true ∧ s.isFull = false ∧ s.halfExceeded = false ∧ s.timeoutDue = false ∧
    s.flushCond = false ∧ s.busy = false

/-- Parameters that break a constraint of R5 are refused and no block is built; parameters that keep
them, with addresses of PAW and PGAW bits, give a block (R5, R204; the address widths: log 3). The spec
marks as its own decision D4, D21, D24, D31. -/
def Obligations.BadParametersAreRefused : Prop :=
  ∀ (c : Config) (u : State),
    (c.k < 1 ∨ c.tw < 2 ∨ 2 ^ c.tw - 1 < c.timeoutInit ∨ c.magicKey = 0x0000 ∨
      c.modernSlotAddr ≤ c.legacySlotAddr + 1 → elaborate c u = .refused .configRefused) ∧
    (1 ≤ c.k → 2 ≤ c.tw → c.timeoutInit ≤ 2 ^ c.tw - 1 → c.magicKey ≠ 0x0000 →
      c.legacySlotAddr + 1 < c.modernSlotAddr → c.modernSlotAddr < 2 ^ c.paw → c.sigAddr < 2 ^ c.pgaw →
      elaborate c u = .next (powerOn c u))

/-! ### Invariants and whole-machine rules -/

/-- The state after reset meets the invariant and has lost no byte, in the build of `State.reset` and in
every build whose parameters are valid (R24, R29, R30, R42). The spec marks as its own decision D3, D9,
D17, D18, D33, D35 and as its own inference R24, R29. -/
def Obligations.ResetStateMeetsTheInvariant : Prop :=
  State.reset.Inv ∧ State.reset.NoLoss ∧
    ∀ c : Config, c.valid = true → (State.resetFor c).Inv ∧ (State.resetFor c).NoLoss

/-- Every step keeps the invariant: registers within their widths, count at most N, flush_rem at most
count, hs_state Idle or Armed, occupied entries written, memories canonical (R24, R29, R30, R108, R134,
R162). The spec marks as its own decision D3 and as its own inference R24, R29, R108, R162. -/
def Obligations.StepKeepsTheInvariant : Prop :=
  ∀ s t : State, s.Inv → step s = .next t → t.Inv

/-- The "written by" column of the state table: a field changes only in the operations that write it, and
no operation writes program memory, the parameters or the inputs (10_state.md section 1.1, R21, R38). The
spec marks as its own decision D5, D25. -/
def Obligations.OnlyItsWritersChangeAField : Prop :=
  ∀ (i : Instr) (s t : State), exec i s = .next t →
    (t.store ≠ s.store → i matches .rxb _ ∨ i matches .rst) ∧
    (t.wrPtr ≠ s.wrPtr → i matches .rxb _ ∨ i matches .rst) ∧
    (t.rdPtr ≠ s.rdPtr → i matches .srsp true ∨ i matches .rst) ∧
    (t.sinceRx ≠ s.sinceRx → i matches .tick ∨ i matches .rxb _ ∨ i matches .rst) ∧
    (t.timeout ≠ s.timeout → i matches .rxb _ ∨ i matches .rst) ∧
    (t.flushRem ≠ s.flushRem → i matches .poll ∨ i matches .srsp _ ∨ i matches .rst) ∧
    (t.hsState ≠ s.hsState → i matches .lenc _ _ _ _ ∨ i matches .ctrl _ _ ∨ i matches .rst) ∧
    (t.slotSel ≠ s.slotSel → i matches .rst) ∧
    (t.backup ≠ s.backup → i matches .rst ∨
      ((i matches .lenc _ _ _ _ ∨ i matches .ctrl _ _) ∧ s.hsState = .idle ∧ s.slotSel = .legacy)) ∧
    (t.curBaud ≠ s.curBaud → i matches .lenc _ _ _ _ ∨ i matches .rst) ∧
    (t.prevBaud ≠ s.prevBaud → i matches .lenc _ _ _ _ ∨ i matches .rst) ∧
    (t.curDtr ≠ s.curDtr → i matches .ctrl _ _ ∨ i matches .rst) ∧
    (t.resetSeen ≠ s.resetSeen → i matches .rst) ∧
    (t.pmem ≠ s.pmem → i matches .lenc _ _ _ _ ∨ i matches .ctrl _ _) ∧
    t.prog = s.prog ∧ t.cfg = s.cfg ∧ t.inputs = s.inputs

/-- No operation changes a byte of persistence memory outside the active slot (R37, R50, R60); at the
topmost address the bytes of a slot are the model's choice (log 10). The spec marks as its own decision
D21, D25. -/
def Obligations.OnlyTheActiveSlotIsWritten : Prop :=
  ∀ (i : Instr) (s t : State), exec i s = .next t → samePmemOutside (slotAddr s.cfg s.slotSel) s t

/-- A step adds to the output trace and rewrites none of it, and it never changes a parameter (R40,
R100). The spec marks as its own decision D2, D4, D5, D34. -/
def Obligations.TraceOnlyGrowsAndParametersStay : Prop :=
  ∀ s t : State, step s = .next t → s.trace <+: t.trace ∧ t.cfg = s.cfg

/-- The status outputs as R41 gives them, hs_state and slot_sel by the codes of R30 and R31. The spec
marks as its own decision D3. -/
def Obligations.StatusOutputsFollowTheState : Prop :=
  ∀ s : State,
    let o := s.statusOutputs
    o.count = s.count ∧ (o.empty = true ↔ s.count = 0) ∧ (o.full = true ↔ s.count = 2 ^ s.cfg.k) ∧
    (o.busy = true ↔ 0 < s.flushRem) ∧ o.txValid = o.busy ∧ o.pollReady = !o.busy ∧
    (0 < s.flushRem → o.txData = s.store.byte? (s.rdPtr % 2 ^ s.cfg.k)) ∧
    o.hsState = (match s.hsState with | .idle => 0b00 | .armed => 0b01 | .cancelling => 0b10) ∧
    o.slotSel = (match s.slotSel with | .modern => 0 | .legacy => 1)

/-! ### The memories outside the block (20_memory.md) -/

/-- MemWrite sets its location to the value and no other byte, emits PMW, and writing the same value
twice leaves the memory as writing it once (R56). That the location is the bytes a and a + 1 and that no
other byte changes is R53, and at the topmost address, where a + 1 is not wrapped, the model's choice
(log 10). The spec marks as its own decision D21, D22. -/
def Obligations.MemWriteIsLocalAndIdempotent : Prop :=
  ∀ (a : Nat) (v : Half) (s : State),
    (memWrite a v s).pmem16 a = v ∧ samePmemOutside a s (memWrite a v s) ∧
    (memWrite a v s).trace = s.trace ++ [.pmw a v] ∧
    { memWrite a v s with pmem := s.pmem, trace := s.trace } = s ∧
    (s.pmem.wf → (memWrite a v (memWrite a v s)).pmem = (memWrite a v s).pmem)

/-- After the application writes either byte of a 16-bit location, the one at its address or the one
above it, the block reads the two bytes combined by PMEM_BYTE_ORDER; no other byte and nothing else
changes (R67, R53). That the write is an input of the step is the model's choice (log 11), and so is the
byte above the topmost address, which no input writes (log 10). The spec marks as its own decision D22
and as its own inference R67. -/
def Obligations.ByteWriteIsCombinedByByteOrder : Prop :=
  ∀ (a : Nat) (b : Byte) (s : State),
    (a < 2 ^ s.cfg.paw → ∃ t, envStep (.appWrite8 a b) s = .next t ∧
      (s.cfg.byteOrder = .little → t.pmem16 a = (s.pmem16 a).extractLsb' 8 8 ++ b) ∧
      (s.cfg.byteOrder = .big → t.pmem16 a = b ++ (s.pmem16 a).extractLsb' 0 8) ∧
      (∀ x, x ≠ a → t.pmem.byte? x = s.pmem.byte? x) ∧ { t with pmem := s.pmem } = s) ∧
    (a + 1 < 2 ^ s.cfg.paw → ∃ t, envStep (.appWrite8 (a + 1) b) s = .next t ∧
      (s.cfg.byteOrder = .little → t.pmem16 a = b ++ (s.pmem16 a).extractLsb' 0 8) ∧
      (s.cfg.byteOrder = .big → t.pmem16 a = (s.pmem16 a).extractLsb' 8 8 ++ b) ∧
      (∀ x, x ≠ a + 1 → t.pmem.byte? x = s.pmem.byte? x) ∧ { t with pmem := s.pmem } = s)

/-- The application may write a persistence location between any two operations; the block's next read
sees the value, and nothing else changes (R63, R218). That the write is an input of the step is the
model's choice (log 11), and so is that at the topmost address no byte but a and the unwrapped a + 1
changes (log 10). The spec marks as its own decision D21. -/
def Obligations.ApplicationWriteIsSeenByTheNextRead : Prop :=
  ∀ (a : Nat) (v : Half) (rest : List Input) (s : State),
    s.inputs = .env (.appWrite16 a v) :: rest → a < 2 ^ s.cfg.paw →
    ∃ t, step s = .next t ∧ t.pmem16 a = v ∧ samePmemOutside a s t ∧ t.inputs = rest ∧
      { t with pmem := s.pmem, inputs := s.inputs } = s

/-- A change of the word at SIG_ADDR leaves slot_sel as it is; the next RST selects the slot by the new
word (R65, R121). That the change is an input of the step, a write between two operations, is the model's
choice (log 11). The spec marks as its own decision D25. -/
def Obligations.SignatureChangeIsSeenAtTheNextRst : Prop :=
  ∀ (v : Half) (s : State), s.cfg.sigAddr < 2 ^ s.cfg.pgaw →
    ∃ t u, envStep (.progWrite16 s.cfg.sigAddr v) s = .next t ∧ t.slotSel = s.slotSel ∧
      exec .rst t = .next u ∧ u.slotSel = if v = s.cfg.sigValue then .modern else .legacy

/-- The end of the countdown the timer was last told to run: START_ARM's is an RST, START_ABSORB's is one
exactly where ABSORB_EXPIRY_RESETS is true, and after CANCEL there is none (R129, R135). That the
countdown is read off the trace, survives an RST and can end again is the model's choice (log 12); the
spec leaves the timer across a reset to the platform. The spec marks as its own decision D19, D20. -/
def Obligations.CountdownEndReachesTheBlockAsRst : Prop :=
  ∀ (cmd : TimerCmd) (before after : List Event) (s : State),
    s.trace = before ++ .rt cmd :: after → (∀ c, .rt c ∉ after) →
    envStep .countdownEnds s =
      match cmd with
      | .startArm => exec .rst s
      | .cancel => .next s
      | .startAbsorb => if s.cfg.absorbExpiryResets = true then exec .rst s else .next s

/-! ### The cycle level (30_encoding.md section 6) -/

/-- Every cycle-level run is an operation-level run, cycle by cycle, whatever the ports carry: with the
work an earlier cycle left (the second half of a host event, the probe) counted as done, a cycle has the
effect, state and trace, of the operations it begins, one after another in the order TICK, SRSP or POLL,
RXB, host event, or of RST alone; and the invariant of the cycle machine is kept (R3, R84, R86, R87, R88;
that what was left comes first in its cycle: log 14, and with rst high: log 17). The spec marks as its
own decision D2, D14, D26, D38. -/
def Obligations.CycleIsItsOperationsInOrder : Prop :=
  ∀ (p : PortsIn) (c : CycleState), c.Inv →
    ∃ c', cycle p c = .next c' ∧ c'.Inv ∧ runOps (c.operations p) c.begun = .next c'.begun ∧
      (p.rst = false → p.evValid = false →
        c'.phase = .none ∧ c'.probeDue = false ∧ runOps (p.fifoOps c.s) c.begun = .next c'.s)

/-- A full buffer that loses a byte to the consumer in a cycle accepts a byte received in that cycle
(R84, 95_test_vectors.md CY1). The spec marks as its own decision D14. -/
def Obligations.FullBufferAcceptsAfterSameCycleRemoval : Prop :=
  ∀ (p : PortsIn) (c : CycleState), c.s.Inv → c.s.resetSeen = true → c.phase = .none →
    c.probeDue = false → p.rst = false → c.s.count = 2 ^ c.s.cfg.k → 0 < c.s.flushRem →
    p.txDone = true → p.txOk = true → p.rxValid = true →
    (cycleOutputs p c).rxOk = some true

/-- An accepted host event with no other signal takes two cycles, in the second of which ev_ready is low;
on the cancel path hs_state is Cancelling between them; and the two cycles together have the effect of
the one operation LENC or CTRL (R87, R134). The spec marks as its own decision D2, D38. -/
def Obligations.HostEventTakesTwoCycles : Prop :=
  ∀ (kind dtr rts : Bool) (baud : Baud) (par : BitVec 2) (stop2 : BitVec 1) (dbits : BitVec 4)
    (s : State), s.resetSeen = true → s.hsState ≠ .cancelling →
    let p : PortsIn := { PortsIn.quiet with
      evValid := true, evKind := kind, evBaud := baud, evPar := par, evStop2 := stop2,
      evDbits := dbits, evDtr := dtr, evRts := rts }
    ∃ c₁ t, cycle p { s := s, phase := .none, probeDue := false } = .next c₁ ∧
      c₁.evReady = false ∧ (t.hsState = .idle → c₁.s.hsState = .cancelling) ∧
      cycle PortsIn.quiet c₁ = .next { s := t, phase := .none, probeDue := false } ∧
      exec (if kind = true then .ctrl dtr rts else .lenc baud par stop2 dbits) s = .next t

/-- FIFO operations may be accepted in both cycles of a host event: the two cycles have the effect, state
and trace, of the FIFO operations of the first, the host event, and the FIFO operations of the second.
With rst high in the second cycle its FIFO operations are discarded, and the effect is that of the FIFO
operations of the first, the host event and RST. Of the events of the host event LEFWD, PMR and CANCEL
are emitted in its first cycle, PMW, START_ARM and START_ABSORB in its second (R84, R86, R87, R88, R209;
that the second half comes first in its cycle: log 14, and with rst high: log 17). The spec marks as its
own decision D2, D14, D26, D38 and as its own inference R209. -/
def Obligations.FifoOperationsDuringAHostEvent : Prop :=
  ∀ (p q : PortsIn) (s : State), s.Inv → s.resetSeen = true → p.rst = false → p.evValid = true →
    ∃ c₁, cycle p { s := s, phase := .none, probeDue := false } = .next c₁ ∧ c₁.evReady = false ∧
      (q.rst = false → ∃ t, cycle q c₁ = .next { s := t, phase := .none, probeDue := false } ∧
        runOps (p.fifoOps s ++ p.hostOp :: q.fifoOps c₁.s) s = .next t) ∧
      (q.rst = true → ∃ c₂ t, cycle q c₁ = .next c₂ ∧
        cycle PortsIn.quiet c₂ = .next { s := t, phase := .none, probeDue := false } ∧
        runOps (p.fifoOps s ++ [p.hostOp, .rst]) s = .next t) ∧
      ∃ sp sh e₁ h₁ h₂, runOps (p.fifoOps s) s = .next sp ∧ sp.trace = s.trace ++ e₁ ∧
        exec p.hostOp s = .next sh ∧ sh.trace = s.trace ++ (h₁ ++ h₂) ∧
        c₁.s.trace = s.trace ++ e₁ ++ h₁ ∧ c₁.hostDone.trace = c₁.s.trace ++ h₂ ∧
        (∀ e ∈ h₁, e matches .leFwd _ _ _ _ ∨ e matches .pmr _ _ ∨ e matches .rt .cancel) ∧
        (∀ e ∈ h₂, e matches .pmw _ _ ∨ e matches .rt .startArm ∨ e matches .rt .startAbsorb)

/-- FIFO operations may be accepted in the probe cycle, the first after rst falls, while no host event
is: the reset cycle and that cycle have the effect of RST and then those operations, after the second
half of a host event accepted one cycle before the reset, if there is one (R84, R87, R88; that this
second half is made: log 17). The spec marks as its own decision D2, D14, D26, D38. -/
def Obligations.FifoOperationsInTheProbeCycle : Prop :=
  ∀ (r p : PortsIn) (c : CycleState), r.rst = true → p.rst = false →
    ∃ c₁ t, cycle r c = .next c₁ ∧ c₁.evReady = false ∧
      cycle p c₁ = .next { s := t, phase := .none, probeDue := false } ∧
      runOps (.rst :: p.fifoOps c₁.s) c.hostDone = .next t

/-- A reset held for any number of cycles and the probe cycle after it, with no other signal, have the
effect of the one operation RST, after the second half of a host event accepted one cycle before the
reset, if there is one; ev_ready is low in the probe cycle (R87, R88; that this second half is made: log
17). The spec marks as its own decision D2, D26, D38. -/
def Obligations.ResetCyclesAmountToRst : Prop :=
  ∀ (p : PortsIn) (c : CycleState), p.rst = true →
    ∃ c₁ t, cycle p c = .next c₁ ∧ cycle p c₁ = .next c₁ ∧ c₁.evReady = false ∧
      cycle PortsIn.quiet c₁ = .next { s := t, phase := .none, probeDue := false } ∧
      exec .rst c.hostDone = .next t

/-! ### Assembler (30_encoding.md section 7) -/

/-- The characters of the example lines of the spec assemble to the words it gives (R89; how the
characters of a line are read: log 15). The spec marks as its own decision D3. -/
def Obligations.AssemblerExamples : Prop :=
  assembleLine "LENC 1200, none, 1, 8".toList = some [0x50000040000004B0] ∧
  assembleLine "LENC 9600, none, 1, 8".toList = some [0x5000004000002580] ∧
  assembleLine "LENC 115200, even, 2, 7".toList = some [0x5000003E0001C200] ∧
  assembleLine "CTRL 1, 0".toList = some [0x6000000000000001]

/-- One line of each form of the syntax: every mnemonic, parity keyword, stop keyword and answer keyword,
either case, hexadecimal, a comment, each pseudo-operation, and operands just out of range (R89, R90; log
15). The spec marks as its own decision D3. -/
def Obligations.AssemblerReadsEveryForm : Prop :=
  assembleLine "TICK".toList = some [0x1000000000000000] ∧
  assembleLine "rxb 0x41 ; a byte".toList = some [0x2000000000000041] ∧
  assembleLine "RXB 255".toList = some [0x20000000000000FF] ∧
  assembleLine "RXB 256".toList = none ∧
  assembleLine "Poll".toList = some [0x3000000000000000] ∧
  assembleLine "SRSP ok".toList = some [0x4000000000000001] ∧
  assembleLine "SRSP fail".toList = some [0x4000000000000000] ∧
  assembleLine "LENC 0, none, 2, 0".toList = some [0x5000000400000000] ∧
  assembleLine "LENC 0, ODD, 1, 5".toList = some [0x5000002900000000] ∧
  assembleLine "LENC 0, even, 1, 0".toList = some [0x5000000200000000] ∧
  assembleLine "LENC 0xFFFFFFFF, p3, 2, 15".toList = some [0x5000007FFFFFFFFF] ∧
  assembleLine "LENC 4294967296, none, 1, 8".toList = none ∧
  assembleLine "LENC 1200, none, 1, 16".toList = none ∧
  assembleLine "CTRL 0, 1".toList = some [0x6000000000000002] ∧
  assembleLine "CTRL 2, 0".toList = none ∧
  assembleLine "RST".toList = some [0x7000000000000000] ∧
  assembleLine "WAIT 0".toList = some [] ∧
  assembleLine "WAIT 2".toList = some [0x1000000000000000, 0x1000000000000000] ∧
  assembleLine "RXG 1, 65".toList = some [0x1000000000000000, 0x2000000000000041] ∧
  assembleLine "SENDOK 2".toList = some [0x4000000000000001, 0x4000000000000001] ∧
  assembleLine "OPEN 9600".toList = some [0x5000004000002580, 0x6000000000000001] ∧
  assembleLine "CLOSE".toList = some [0x6000000000000000] ∧
  assembleLine "TOUCH1200".toList = some [0x50000040000004B0, 0x6000000000000001, 0x6000000000000000]

/-- An operand out of its field's range is an assembly error: no word is produced (R89). The spec marks
as its own decision D3. -/
def Obligations.OperandOutOfRangeIsAnError : Prop :=
  (∀ d, 2 ^ 8 ≤ d → (AsmLine.rxb d).words = none) ∧
  (∀ baud par stop2 dbits, 2 ^ 32 ≤ baud ∨ 2 ^ 4 ≤ dbits →
    (AsmLine.lenc baud par stop2 dbits).words = none) ∧
  (∀ dtr rts, 2 ≤ dtr ∨ 2 ≤ rts → (AsmLine.ctrl dtr rts).words = none)

/-- The expansions of the pseudo-operations (R90). The spec marks as its own decision D3. -/
def Obligations.PseudoOperationsExpand : Prop :=
  (∀ n, (AsmLine.wait n).words = some (List.replicate n 0x1000000000000000)) ∧
  (∀ n d, d < 2 ^ 8 → (AsmLine.rxg n d).words =
    some (List.replicate n 0x1000000000000000 ++ [0x2000000000000000 ||| BitVec.ofNat 64 d])) ∧
  (∀ n, (AsmLine.sendOk n).words = some (List.replicate n 0x4000000000000001)) ∧
  (∀ baud, baud < 2 ^ 32 → (AsmLine.openPort baud).words =
    some [0x5000004000000000 ||| BitVec.ofNat 64 baud, 0x6000000000000001]) ∧
  AsmLine.close.words = some [0x6000000000000000] ∧
  AsmLine.touch1200.words = some [0x50000040000004B0, 0x6000000000000001, 0x6000000000000000]
end

