-- ==== Sys2Proof/Laws/Memory.lean ====
section
/-!
SUPPORT. Laws of memory: a read after a write, that a write keeps the canonical form, that equal reads
of canonical memories are equal memories, and the 16-bit accesses (20_memory.md R53, R56, R67).
-/

namespace Sys2Proof.Machine

@[simp] theorem Memory.byte?_nil (a : Nat) : Memory.byte? [] a = none := rfl

theorem Memory.byte?_cons (c : Host.Cell) (m : Memory) (a : Nat) :
    Memory.byte? (c :: m) a = if c.1 = a then some c.2 else Memory.byte? m a := rfl

/-- The byte written is read back, and every other address reads as before. -/
theorem Memory.byte?_set (m : Memory) (a : Nat) (v : Byte) (b : Nat) :
    Memory.byte? (m.set a v) b = if a = b then some v else m.byte? b := by
  induction m with
  | nil => simp [Memory.set, Memory.byte?_cons]
  | cons c m ih =>
    by_cases h₁ : a < c.1
    · simp [Memory.set, h₁, Memory.byte?_cons]
    · by_cases h₂ : c.1 = a
      · subst h₂
        by_cases h₃ : c.1 = b <;> simp [Memory.set, Memory.byte?_cons, h₃]
      · simp only [Memory.set, h₁, h₂, if_false, Memory.byte?_cons, ih]
        by_cases h₃ : c.1 = b
        · have : a ≠ b := fun h => h₂ (h₃.trans h.symm)
          simp [h₃, this]
        · simp [h₃]

@[simp] theorem Memory.byte?_set_same (m : Memory) (a : Nat) (v : Byte) :
    Memory.byte? (m.set a v) a = some v := by simp [Memory.byte?_set]

theorem Memory.byte?_set_other (m : Memory) {a b : Nat} (v : Byte) (h : a ≠ b) :
    Memory.byte? (m.set a v) b = m.byte? b := by simp [Memory.byte?_set, h]

/-- The cells of a memory after a write: the cell written, and cells it had. -/
theorem Memory.mem_set {m : Memory} {a : Nat} {v : Byte} {c : Host.Cell} (h : c ∈ m.set a v) :
    c = (a, v) ∨ c ∈ m := by
  induction m with
  | nil => simpa [Memory.set] using h
  | cons d m ih =>
    by_cases h₁ : a < d.1
    · simpa [Memory.set, h₁] using h
    · by_cases h₂ : d.1 = a
      · rw [Memory.set, if_neg h₁, if_pos h₂] at h
        rcases List.mem_cons.1 h with h | h
        · exact .inl h
        · exact .inr (List.mem_cons_of_mem _ h)
      · rw [Memory.set, if_neg h₁, if_neg h₂] at h
        rcases List.mem_cons.1 h with h | h
        · exact .inr (h ▸ List.mem_cons_self)
        · rcases ih h with h | h
          · exact .inl h
          · exact .inr (List.mem_cons_of_mem _ h)

/-- A write keeps the canonical form. -/
theorem Memory.set_wf {m : Memory} (h : m.wf) (a : Nat) (v : Byte) : (m.set a v).wf := by
  induction m with
  | nil => simp [Memory.set]
  | cons c m ih =>
    have hc := List.pairwise_cons.1 h
    by_cases h₁ : a < c.1
    · rw [Memory.set, if_pos h₁]
      refine List.pairwise_cons.2 ⟨fun d hd => ?_, h⟩
      rcases List.mem_cons.1 hd with rfl | hd
      · exact h₁
      · exact h₁.trans (hc.1 d hd)
    · by_cases h₂ : c.1 = a
      · rw [Memory.set, if_neg h₁, if_pos h₂]
        exact List.pairwise_cons.2 ⟨fun d hd => h₂ ▸ hc.1 d hd, hc.2⟩
      · rw [Memory.set, if_neg h₁, if_neg h₂]
        refine List.pairwise_cons.2 ⟨fun d hd => ?_, ih hc.2⟩
        rcases Memory.mem_set hd with rfl | hd
        · show c.1 < a
          omega
        · exact hc.1 d hd

theorem Memory.byte?_eq_none_of_lt {m : Memory} {a : Nat} (h : ∀ c ∈ m, a < c.1) : m.byte? a = none := by
  induction m with
  | nil => rfl
  | cons c m ih =>
    have hc := h c List.mem_cons_self
    rw [Memory.byte?_cons, if_neg (by omega)]
    exact ih fun d hd => h d (List.mem_cons_of_mem _ hd)

/-- Canonical memories that read the same everywhere are the same data. -/
theorem Memory.ext_of_byte? {m₁ m₂ : Memory} (h₁ : m₁.wf) (h₂ : m₂.wf)
    (h : ∀ a, m₁.byte? a = m₂.byte? a) : m₁ = m₂ := by
  induction m₁ generalizing m₂ with
  | nil =>
    cases m₂ with
    | nil => rfl
    | cons d m₂ => simpa [Memory.byte?_cons] using h d.1
  | cons c m₁ ih =>
    cases m₂ with
    | nil => simpa [Memory.byte?_cons] using h c.1
    | cons d m₂ =>
      have hc := List.pairwise_cons.1 h₁
      have hd := List.pairwise_cons.1 h₂
      have key : c.1 = d.1 := by
        rcases Nat.lt_trichotomy c.1 d.1 with hlt | heq | hlt
        · have h0 := h c.1
          rw [Memory.byte?_cons, if_pos rfl, Memory.byte?_cons, if_neg (by omega),
            Memory.byte?_eq_none_of_lt fun e he => hlt.trans (hd.1 e he)] at h0
          cases h0
        · exact heq
        · have h0 := h d.1
          rw [Memory.byte?_cons, if_neg (by omega), Memory.byte?_cons, if_pos rfl,
            Memory.byte?_eq_none_of_lt fun e he => hlt.trans (hc.1 e he)] at h0
          cases h0
      have val : c.2 = d.2 := by
        have h0 := h c.1
        rw [Memory.byte?_cons, if_pos rfl, Memory.byte?_cons, if_pos key.symm] at h0
        exact Option.some.inj h0
      have rest : m₁ = m₂ := by
        refine ih hc.2 hd.2 fun a => ?_
        by_cases ha : c.1 = a
        · rw [← ha, Memory.byte?_eq_none_of_lt hc.1, key, Memory.byte?_eq_none_of_lt hd.1]
        · have h0 := h a
          rwa [Memory.byte?_cons, if_neg ha, Memory.byte?_cons, if_neg (key ▸ ha)] at h0
      rw [rest, Prod.ext key val]

/-! ### 16-bit accesses -/

theorem loByteAddr_ne_hiByteAddr (o : ByteOrder) (a : Nat) : loByteAddr o a ≠ hiByteAddr o a := by
  cases o <;> simp [loByteAddr, hiByteAddr]

/-- The two bytes of the location at `a` are those at `a` and `a + 1`, in either byte order. -/
theorem byteAddrs_cases (o : ByteOrder) (a b : Nat) :
    (b = loByteAddr o a ∨ b = hiByteAddr o a) ↔ (b = a ∨ b = a + 1) := by
  cases o <;> simp [loByteAddr, hiByteAddr, or_comm]

/-- A 16-bit write keeps the canonical form. -/
theorem Memory.write16_wf {m : Memory} (h : m.wf) (o : ByteOrder) (a : Nat) (v : Half) :
    (m.write16 o a v).wf := Memory.set_wf (Memory.set_wf h _ _) _ _

/-- The memories of the state after reset are canonical. -/
theorem reset_memories_wf : State.reset.store.wf ∧ State.reset.pmem.wf ∧ State.reset.prog.wf :=
  ⟨List.Pairwise.nil, List.Pairwise.nil, List.Pairwise.nil⟩

/-- Every byte outside the location written reads as before. -/
theorem Memory.byte?_write16_other (m : Memory) (o : ByteOrder) (v : Half) {a b : Nat} (h₀ : b ≠ a)
    (h₁ : b ≠ a + 1) : (m.write16 o a v).byte? b = m.byte? b := by
  have hb : ¬ (b = loByteAddr o a ∨ b = hiByteAddr o a) := by
    rw [byteAddrs_cases]; exact fun h => h.elim h₀ h₁
  rw [Memory.write16, Memory.byte?_set_other _ _ fun h => hb (.inr h.symm),
    Memory.byte?_set_other _ _ fun h => hb (.inl h.symm)]

theorem append_extractLsb' (v : Half) : v.extractLsb' 8 8 ++ v.extractLsb' 0 8 = v := by
  apply BitVec.eq_of_getLsbD_eq
  intro i hi
  rw [BitVec.getLsbD_append]
  by_cases h : i < 8
  · simp [h]
  · simp only [h, decide_false, BitVec.getLsbD_extractLsb']
    have h8 : i - 8 < 8 := by omega
    have : 8 + (i - 8) = i := by omega
    simp [h8, this]

/-- A 16-bit read gives the value last written to the location, in either byte order. -/
theorem Memory.read16_write16_same (m : Memory) (o : ByteOrder) (f : Nat → Byte) (a : Nat) (v : Half) :
    (m.write16 o a v).read16 o f a = v := by
  have hlo : (m.write16 o a v).byte? (loByteAddr o a) = some (v.extractLsb' 0 8) := by
    rw [Memory.write16, Memory.byte?_set_other _ _ (loByteAddr_ne_hiByteAddr o a).symm,
      Memory.byte?_set_same]
  have hhi : (m.write16 o a v).byte? (hiByteAddr o a) = some (v.extractLsb' 8 8) := by
    rw [Memory.write16, Memory.byte?_set_same]
  rw [Memory.read16, Memory.byteOr, Memory.byteOr, hlo, hhi]
  exact append_extractLsb' v

/-- A 16-bit location that shares no byte with the one written reads as before. -/
theorem Memory.read16_write16_other (m : Memory) (o : ByteOrder) (f : Nat → Byte) (v : Half)
    {a b : Nat} (h : a + 1 < b ∨ b + 1 < a) : (m.write16 o a v).read16 o f b = m.read16 o f b := by
  have key : ∀ x, x = b ∨ x = b + 1 → (m.write16 o a v).byteOr f x = m.byteOr f x := fun x hx => by
    rw [Memory.byteOr, Memory.byteOr, Memory.byte?_write16_other m o v (by omega) (by omega)]
  rw [Memory.read16, Memory.read16, key _ ((byteAddrs_cases o b _).1 (.inr rfl)),
    key _ ((byteAddrs_cases o b _).1 (.inl rfl))]

end Sys2Proof.Machine
end

