-- ==== Sys2Proof/Laws/State.lean ====
section
/-!
SUPPORT. What each named update of a state does to each field: one lemma per field per update, true by
rfl, so that no later proof unfolds a record update.
-/

namespace Sys2Proof.Machine

/-! ### State.emit -/

@[simp] theorem State.emit_cfg (s : State) (e : Event) : (s.emit e).cfg = s.cfg := rfl
@[simp] theorem State.emit_store (s : State) (e : Event) : (s.emit e).store = s.store := rfl
@[simp] theorem State.emit_wrPtr (s : State) (e : Event) : (s.emit e).wrPtr = s.wrPtr := rfl
@[simp] theorem State.emit_rdPtr (s : State) (e : Event) : (s.emit e).rdPtr = s.rdPtr := rfl
@[simp] theorem State.emit_sinceRx (s : State) (e : Event) : (s.emit e).sinceRx = s.sinceRx := rfl
@[simp] theorem State.emit_timeout (s : State) (e : Event) : (s.emit e).timeout = s.timeout := rfl
@[simp] theorem State.emit_flushRem (s : State) (e : Event) : (s.emit e).flushRem = s.flushRem := rfl
@[simp] theorem State.emit_hsState (s : State) (e : Event) : (s.emit e).hsState = s.hsState := rfl
@[simp] theorem State.emit_slotSel (s : State) (e : Event) : (s.emit e).slotSel = s.slotSel := rfl
@[simp] theorem State.emit_backup (s : State) (e : Event) : (s.emit e).backup = s.backup := rfl
@[simp] theorem State.emit_curBaud (s : State) (e : Event) : (s.emit e).curBaud = s.curBaud := rfl
@[simp] theorem State.emit_prevBaud (s : State) (e : Event) : (s.emit e).prevBaud = s.prevBaud := rfl
@[simp] theorem State.emit_curDtr (s : State) (e : Event) : (s.emit e).curDtr = s.curDtr := rfl
@[simp] theorem State.emit_resetSeen (s : State) (e : Event) : (s.emit e).resetSeen = s.resetSeen := rfl
@[simp] theorem State.emit_pmem (s : State) (e : Event) : (s.emit e).pmem = s.pmem := rfl
@[simp] theorem State.emit_prog (s : State) (e : Event) : (s.emit e).prog = s.prog := rfl
@[simp] theorem State.emit_trace (s : State) (e : Event) : (s.emit e).trace = s.trace ++ [e] := rfl
@[simp] theorem State.emit_inputs (s : State) (e : Event) : (s.emit e).inputs = s.inputs := rfl

/-! ### memRead -/

@[simp] theorem memRead_cfg (a : Nat) (s : State) : (memRead a s).cfg = s.cfg := rfl
@[simp] theorem memRead_store (a : Nat) (s : State) : (memRead a s).store = s.store := rfl
@[simp] theorem memRead_wrPtr (a : Nat) (s : State) : (memRead a s).wrPtr = s.wrPtr := rfl
@[simp] theorem memRead_rdPtr (a : Nat) (s : State) : (memRead a s).rdPtr = s.rdPtr := rfl
@[simp] theorem memRead_sinceRx (a : Nat) (s : State) : (memRead a s).sinceRx = s.sinceRx := rfl
@[simp] theorem memRead_timeout (a : Nat) (s : State) : (memRead a s).timeout = s.timeout := rfl
@[simp] theorem memRead_flushRem (a : Nat) (s : State) : (memRead a s).flushRem = s.flushRem := rfl
@[simp] theorem memRead_hsState (a : Nat) (s : State) : (memRead a s).hsState = s.hsState := rfl
@[simp] theorem memRead_slotSel (a : Nat) (s : State) : (memRead a s).slotSel = s.slotSel := rfl
@[simp] theorem memRead_backup (a : Nat) (s : State) : (memRead a s).backup = s.backup := rfl
@[simp] theorem memRead_curBaud (a : Nat) (s : State) : (memRead a s).curBaud = s.curBaud := rfl
@[simp] theorem memRead_prevBaud (a : Nat) (s : State) : (memRead a s).prevBaud = s.prevBaud := rfl
@[simp] theorem memRead_curDtr (a : Nat) (s : State) : (memRead a s).curDtr = s.curDtr := rfl
@[simp] theorem memRead_resetSeen (a : Nat) (s : State) : (memRead a s).resetSeen = s.resetSeen := rfl
@[simp] theorem memRead_pmem (a : Nat) (s : State) : (memRead a s).pmem = s.pmem := rfl
@[simp] theorem memRead_prog (a : Nat) (s : State) : (memRead a s).prog = s.prog := rfl
@[simp] theorem memRead_trace (a : Nat) (s : State) :
    (memRead a s).trace = s.trace ++ [.pmr a (s.pmem16 a)] := rfl
@[simp] theorem memRead_inputs (a : Nat) (s : State) : (memRead a s).inputs = s.inputs := rfl

/-! ### memWrite -/

@[simp] theorem memWrite_cfg (a : Nat) (v : Half) (s : State) : (memWrite a v s).cfg = s.cfg := rfl
@[simp] theorem memWrite_store (a : Nat) (v : Half) (s : State) : (memWrite a v s).store = s.store := rfl
@[simp] theorem memWrite_wrPtr (a : Nat) (v : Half) (s : State) : (memWrite a v s).wrPtr = s.wrPtr := rfl
@[simp] theorem memWrite_rdPtr (a : Nat) (v : Half) (s : State) : (memWrite a v s).rdPtr = s.rdPtr := rfl
@[simp] theorem memWrite_sinceRx (a : Nat) (v : Half) (s : State) :
    (memWrite a v s).sinceRx = s.sinceRx := rfl
@[simp] theorem memWrite_timeout (a : Nat) (v : Half) (s : State) :
    (memWrite a v s).timeout = s.timeout := rfl
@[simp] theorem memWrite_flushRem (a : Nat) (v : Half) (s : State) :
    (memWrite a v s).flushRem = s.flushRem := rfl
@[simp] theorem memWrite_hsState (a : Nat) (v : Half) (s : State) :
    (memWrite a v s).hsState = s.hsState := rfl
@[simp] theorem memWrite_slotSel (a : Nat) (v : Half) (s : State) :
    (memWrite a v s).slotSel = s.slotSel := rfl
@[simp] theorem memWrite_backup (a : Nat) (v : Half) (s : State) : (memWrite a v s).backup = s.backup := rfl
@[simp] theorem memWrite_curBaud (a : Nat) (v : Half) (s : State) :
    (memWrite a v s).curBaud = s.curBaud := rfl
@[simp] theorem memWrite_prevBaud (a : Nat) (v : Half) (s : State) :
    (memWrite a v s).prevBaud = s.prevBaud := rfl
@[simp] theorem memWrite_curDtr (a : Nat) (v : Half) (s : State) : (memWrite a v s).curDtr = s.curDtr := rfl
@[simp] theorem memWrite_resetSeen (a : Nat) (v : Half) (s : State) :
    (memWrite a v s).resetSeen = s.resetSeen := rfl
@[simp] theorem memWrite_pmem (a : Nat) (v : Half) (s : State) :
    (memWrite a v s).pmem = s.pmem.write16 s.cfg.byteOrder a v := rfl
@[simp] theorem memWrite_prog (a : Nat) (v : Half) (s : State) : (memWrite a v s).prog = s.prog := rfl
@[simp] theorem memWrite_trace (a : Nat) (v : Half) (s : State) :
    (memWrite a v s).trace = s.trace ++ [.pmw a v] := rfl
@[simp] theorem memWrite_inputs (a : Nat) (v : Half) (s : State) : (memWrite a v s).inputs = s.inputs := rfl

/-! ### progRead -/

@[simp] theorem progRead_cfg (a : Nat) (s : State) : (progRead a s).cfg = s.cfg := rfl
@[simp] theorem progRead_store (a : Nat) (s : State) : (progRead a s).store = s.store := rfl
@[simp] theorem progRead_wrPtr (a : Nat) (s : State) : (progRead a s).wrPtr = s.wrPtr := rfl
@[simp] theorem progRead_rdPtr (a : Nat) (s : State) : (progRead a s).rdPtr = s.rdPtr := rfl
@[simp] theorem progRead_sinceRx (a : Nat) (s : State) : (progRead a s).sinceRx = s.sinceRx := rfl
@[simp] theorem progRead_timeout (a : Nat) (s : State) : (progRead a s).timeout = s.timeout := rfl
@[simp] theorem progRead_flushRem (a : Nat) (s : State) : (progRead a s).flushRem = s.flushRem := rfl
@[simp] theorem progRead_hsState (a : Nat) (s : State) : (progRead a s).hsState = s.hsState := rfl
@[simp] theorem progRead_slotSel (a : Nat) (s : State) : (progRead a s).slotSel = s.slotSel := rfl
@[simp] theorem progRead_backup (a : Nat) (s : State) : (progRead a s).backup = s.backup := rfl
@[simp] theorem progRead_curBaud (a : Nat) (s : State) : (progRead a s).curBaud = s.curBaud := rfl
@[simp] theorem progRead_prevBaud (a : Nat) (s : State) : (progRead a s).prevBaud = s.prevBaud := rfl
@[simp] theorem progRead_curDtr (a : Nat) (s : State) : (progRead a s).curDtr = s.curDtr := rfl
@[simp] theorem progRead_resetSeen (a : Nat) (s : State) : (progRead a s).resetSeen = s.resetSeen := rfl
@[simp] theorem progRead_pmem (a : Nat) (s : State) : (progRead a s).pmem = s.pmem := rfl
@[simp] theorem progRead_prog (a : Nat) (s : State) : (progRead a s).prog = s.prog := rfl
@[simp] theorem progRead_trace (a : Nat) (s : State) :
    (progRead a s).trace = s.trace ++ [.pgr a (s.prog16 a)] := rfl
@[simp] theorem progRead_inputs (a : Nat) (s : State) : (progRead a s).inputs = s.inputs := rfl

/-! ### resetRegisters -/

@[simp] theorem resetRegisters_cfg (s : State) : (resetRegisters s).cfg = s.cfg := rfl
@[simp] theorem resetRegisters_store (s : State) : (resetRegisters s).store = [] := rfl
@[simp] theorem resetRegisters_wrPtr (s : State) : (resetRegisters s).wrPtr = 0 := rfl
@[simp] theorem resetRegisters_rdPtr (s : State) : (resetRegisters s).rdPtr = 0 := rfl
@[simp] theorem resetRegisters_sinceRx (s : State) : (resetRegisters s).sinceRx = 0 := rfl
@[simp] theorem resetRegisters_timeout (s : State) : (resetRegisters s).timeout = s.cfg.timeoutInit := rfl
@[simp] theorem resetRegisters_flushRem (s : State) : (resetRegisters s).flushRem = 0 := rfl
@[simp] theorem resetRegisters_hsState (s : State) : (resetRegisters s).hsState = .idle := rfl
@[simp] theorem resetRegisters_slotSel (s : State) : (resetRegisters s).slotSel = s.slotSel := rfl
@[simp] theorem resetRegisters_backup (s : State) : (resetRegisters s).backup = 0x0000 := rfl
@[simp] theorem resetRegisters_curBaud (s : State) : (resetRegisters s).curBaud = 0 := rfl
@[simp] theorem resetRegisters_prevBaud (s : State) : (resetRegisters s).prevBaud = 0 := rfl
@[simp] theorem resetRegisters_curDtr (s : State) : (resetRegisters s).curDtr = false := rfl
@[simp] theorem resetRegisters_resetSeen (s : State) : (resetRegisters s).resetSeen = s.resetSeen := rfl
@[simp] theorem resetRegisters_pmem (s : State) : (resetRegisters s).pmem = s.pmem := rfl
@[simp] theorem resetRegisters_prog (s : State) : (resetRegisters s).prog = s.prog := rfl
@[simp] theorem resetRegisters_trace (s : State) : (resetRegisters s).trace = s.trace := rfl
@[simp] theorem resetRegisters_inputs (s : State) : (resetRegisters s).inputs = s.inputs := rfl

/-! ### probe -/

@[simp] theorem probe_cfg (s : State) : (probe s).cfg = s.cfg := rfl
@[simp] theorem probe_store (s : State) : (probe s).store = s.store := rfl
@[simp] theorem probe_wrPtr (s : State) : (probe s).wrPtr = s.wrPtr := rfl
@[simp] theorem probe_rdPtr (s : State) : (probe s).rdPtr = s.rdPtr := rfl
@[simp] theorem probe_sinceRx (s : State) : (probe s).sinceRx = s.sinceRx := rfl
@[simp] theorem probe_timeout (s : State) : (probe s).timeout = s.timeout := rfl
@[simp] theorem probe_flushRem (s : State) : (probe s).flushRem = s.flushRem := rfl
@[simp] theorem probe_hsState (s : State) : (probe s).hsState = s.hsState := rfl
@[simp] theorem probe_slotSel (s : State) : (probe s).slotSel = s.probedSlot := rfl
@[simp] theorem probe_backup (s : State) : (probe s).backup = s.backup := rfl
@[simp] theorem probe_curBaud (s : State) : (probe s).curBaud = s.curBaud := rfl
@[simp] theorem probe_prevBaud (s : State) : (probe s).prevBaud = s.prevBaud := rfl
@[simp] theorem probe_curDtr (s : State) : (probe s).curDtr = s.curDtr := rfl
@[simp] theorem probe_resetSeen (s : State) : (probe s).resetSeen = s.resetSeen := rfl
@[simp] theorem probe_pmem (s : State) : (probe s).pmem = s.pmem := rfl
@[simp] theorem probe_prog (s : State) : (probe s).prog = s.prog := rfl
@[simp] theorem probe_trace (s : State) :
    (probe s).trace = s.trace ++ [.pgr s.cfg.sigAddr (s.prog16 s.cfg.sigAddr)] := rfl
@[simp] theorem probe_inputs (s : State) : (probe s).inputs = s.inputs := rfl

/-! ### lencLatch -/

@[simp] theorem lencLatch_cfg (baud : Baud) (par : BitVec 2) (stop2 : BitVec 1) (dbits : BitVec 4) (s : State) :
    (lencLatch baud par stop2 dbits s).cfg = s.cfg := rfl
@[simp] theorem lencLatch_store (baud : Baud) (par : BitVec 2) (stop2 : BitVec 1) (dbits : BitVec 4) (s : State) :
    (lencLatch baud par stop2 dbits s).store = s.store := rfl
@[simp] theorem lencLatch_wrPtr (baud : Baud) (par : BitVec 2) (stop2 : BitVec 1) (dbits : BitVec 4) (s : State) :
    (lencLatch baud par stop2 dbits s).wrPtr = s.wrPtr := rfl
@[simp] theorem lencLatch_rdPtr (baud : Baud) (par : BitVec 2) (stop2 : BitVec 1) (dbits : BitVec 4) (s : State) :
    (lencLatch baud par stop2 dbits s).rdPtr = s.rdPtr := rfl
@[simp] theorem lencLatch_sinceRx (baud : Baud) (par : BitVec 2) (stop2 : BitVec 1) (dbits : BitVec 4) (s : State) :
    (lencLatch baud par stop2 dbits s).sinceRx = s.sinceRx := rfl
@[simp] theorem lencLatch_timeout (baud : Baud) (par : BitVec 2) (stop2 : BitVec 1) (dbits : BitVec 4) (s : State) :
    (lencLatch baud par stop2 dbits s).timeout = s.timeout := rfl
@[simp] theorem lencLatch_flushRem (baud : Baud) (par : BitVec 2) (stop2 : BitVec 1) (dbits : BitVec 4) (s : State) :
    (lencLatch baud par stop2 dbits s).flushRem = s.flushRem := rfl
@[simp] theorem lencLatch_hsState (baud : Baud) (par : BitVec 2) (stop2 : BitVec 1) (dbits : BitVec 4) (s : State) :
    (lencLatch baud par stop2 dbits s).hsState = s.hsState := rfl
@[simp] theorem lencLatch_slotSel (baud : Baud) (par : BitVec 2) (stop2 : BitVec 1) (dbits : BitVec 4) (s : State) :
    (lencLatch baud par stop2 dbits s).slotSel = s.slotSel := rfl
@[simp] theorem lencLatch_backup (baud : Baud) (par : BitVec 2) (stop2 : BitVec 1) (dbits : BitVec 4) (s : State) :
    (lencLatch baud par stop2 dbits s).backup = s.backup := rfl
@[simp] theorem lencLatch_curBaud (baud : Baud) (par : BitVec 2) (stop2 : BitVec 1) (dbits : BitVec 4) (s : State) :
    (lencLatch baud par stop2 dbits s).curBaud = baud := rfl
@[simp] theorem lencLatch_prevBaud (baud : Baud) (par : BitVec 2) (stop2 : BitVec 1) (dbits : BitVec 4) (s : State) :
    (lencLatch baud par stop2 dbits s).prevBaud = s.curBaud := rfl
@[simp] theorem lencLatch_curDtr (baud : Baud) (par : BitVec 2) (stop2 : BitVec 1) (dbits : BitVec 4) (s : State) :
    (lencLatch baud par stop2 dbits s).curDtr = s.curDtr := rfl
@[simp] theorem lencLatch_resetSeen (baud : Baud) (par : BitVec 2) (stop2 : BitVec 1) (dbits : BitVec 4) (s : State) :
    (lencLatch baud par stop2 dbits s).resetSeen = s.resetSeen := rfl
@[simp] theorem lencLatch_pmem (baud : Baud) (par : BitVec 2) (stop2 : BitVec 1) (dbits : BitVec 4) (s : State) :
    (lencLatch baud par stop2 dbits s).pmem = s.pmem := rfl
@[simp] theorem lencLatch_prog (baud : Baud) (par : BitVec 2) (stop2 : BitVec 1) (dbits : BitVec 4) (s : State) :
    (lencLatch baud par stop2 dbits s).prog = s.prog := rfl
@[simp] theorem lencLatch_trace (baud : Baud) (par : BitVec 2) (stop2 : BitVec 1) (dbits : BitVec 4) (s : State) :
    (lencLatch baud par stop2 dbits s).trace = s.trace ++ [.leFwd baud par stop2 dbits] := rfl
@[simp] theorem lencLatch_inputs (baud : Baud) (par : BitVec 2) (stop2 : BitVec 1) (dbits : BitVec 4) (s : State) :
    (lencLatch baud par stop2 dbits s).inputs = s.inputs := rfl

/-! ### ctrlLatch -/

@[simp] theorem ctrlLatch_cfg (dtr : Bool) (s : State) : (ctrlLatch dtr s).cfg = s.cfg := rfl
@[simp] theorem ctrlLatch_store (dtr : Bool) (s : State) : (ctrlLatch dtr s).store = s.store := rfl
@[simp] theorem ctrlLatch_wrPtr (dtr : Bool) (s : State) : (ctrlLatch dtr s).wrPtr = s.wrPtr := rfl
@[simp] theorem ctrlLatch_rdPtr (dtr : Bool) (s : State) : (ctrlLatch dtr s).rdPtr = s.rdPtr := rfl
@[simp] theorem ctrlLatch_sinceRx (dtr : Bool) (s : State) : (ctrlLatch dtr s).sinceRx = s.sinceRx := rfl
@[simp] theorem ctrlLatch_timeout (dtr : Bool) (s : State) : (ctrlLatch dtr s).timeout = s.timeout := rfl
@[simp] theorem ctrlLatch_flushRem (dtr : Bool) (s : State) : (ctrlLatch dtr s).flushRem = s.flushRem := rfl
@[simp] theorem ctrlLatch_hsState (dtr : Bool) (s : State) : (ctrlLatch dtr s).hsState = s.hsState := rfl
@[simp] theorem ctrlLatch_slotSel (dtr : Bool) (s : State) : (ctrlLatch dtr s).slotSel = s.slotSel := rfl
@[simp] theorem ctrlLatch_backup (dtr : Bool) (s : State) : (ctrlLatch dtr s).backup = s.backup := rfl
@[simp] theorem ctrlLatch_curBaud (dtr : Bool) (s : State) : (ctrlLatch dtr s).curBaud = s.curBaud := rfl
@[simp] theorem ctrlLatch_prevBaud (dtr : Bool) (s : State) : (ctrlLatch dtr s).prevBaud = s.prevBaud := rfl
@[simp] theorem ctrlLatch_curDtr (dtr : Bool) (s : State) : (ctrlLatch dtr s).curDtr = dtr := rfl
@[simp] theorem ctrlLatch_resetSeen (dtr : Bool) (s : State) :
    (ctrlLatch dtr s).resetSeen = s.resetSeen := rfl
@[simp] theorem ctrlLatch_pmem (dtr : Bool) (s : State) : (ctrlLatch dtr s).pmem = s.pmem := rfl
@[simp] theorem ctrlLatch_prog (dtr : Bool) (s : State) : (ctrlLatch dtr s).prog = s.prog := rfl
@[simp] theorem ctrlLatch_trace (dtr : Bool) (s : State) : (ctrlLatch dtr s).trace = s.trace := rfl
@[simp] theorem ctrlLatch_inputs (dtr : Bool) (s : State) : (ctrlLatch dtr s).inputs = s.inputs := rfl

/-! ### cancelBegin -/

@[simp] theorem cancelBegin_cfg (s : State) : (cancelBegin s).cfg = s.cfg := rfl
@[simp] theorem cancelBegin_store (s : State) : (cancelBegin s).store = s.store := rfl
@[simp] theorem cancelBegin_wrPtr (s : State) : (cancelBegin s).wrPtr = s.wrPtr := rfl
@[simp] theorem cancelBegin_rdPtr (s : State) : (cancelBegin s).rdPtr = s.rdPtr := rfl
@[simp] theorem cancelBegin_sinceRx (s : State) : (cancelBegin s).sinceRx = s.sinceRx := rfl
@[simp] theorem cancelBegin_timeout (s : State) : (cancelBegin s).timeout = s.timeout := rfl
@[simp] theorem cancelBegin_flushRem (s : State) : (cancelBegin s).flushRem = s.flushRem := rfl
@[simp] theorem cancelBegin_hsState (s : State) : (cancelBegin s).hsState = .cancelling := rfl
@[simp] theorem cancelBegin_slotSel (s : State) : (cancelBegin s).slotSel = s.slotSel := rfl
@[simp] theorem cancelBegin_backup (s : State) : (cancelBegin s).backup = s.backup := rfl
@[simp] theorem cancelBegin_curBaud (s : State) : (cancelBegin s).curBaud = s.curBaud := rfl
@[simp] theorem cancelBegin_prevBaud (s : State) : (cancelBegin s).prevBaud = s.prevBaud := rfl
@[simp] theorem cancelBegin_curDtr (s : State) : (cancelBegin s).curDtr = s.curDtr := rfl
@[simp] theorem cancelBegin_resetSeen (s : State) : (cancelBegin s).resetSeen = s.resetSeen := rfl
@[simp] theorem cancelBegin_pmem (s : State) : (cancelBegin s).pmem = s.pmem := rfl
@[simp] theorem cancelBegin_prog (s : State) : (cancelBegin s).prog = s.prog := rfl
@[simp] theorem cancelBegin_trace (s : State) : (cancelBegin s).trace = s.trace ++ [.rt .cancel] := rfl
@[simp] theorem cancelBegin_inputs (s : State) : (cancelBegin s).inputs = s.inputs := rfl

/-! ### cancelCommit -/

@[simp] theorem cancelCommit_cfg (s : State) : (cancelCommit s).cfg = s.cfg := rfl
@[simp] theorem cancelCommit_store (s : State) : (cancelCommit s).store = s.store := rfl
@[simp] theorem cancelCommit_wrPtr (s : State) : (cancelCommit s).wrPtr = s.wrPtr := rfl
@[simp] theorem cancelCommit_rdPtr (s : State) : (cancelCommit s).rdPtr = s.rdPtr := rfl
@[simp] theorem cancelCommit_sinceRx (s : State) : (cancelCommit s).sinceRx = s.sinceRx := rfl
@[simp] theorem cancelCommit_timeout (s : State) : (cancelCommit s).timeout = s.timeout := rfl
@[simp] theorem cancelCommit_flushRem (s : State) : (cancelCommit s).flushRem = s.flushRem := rfl
@[simp] theorem cancelCommit_hsState (s : State) : (cancelCommit s).hsState = .idle := rfl
@[simp] theorem cancelCommit_slotSel (s : State) : (cancelCommit s).slotSel = s.slotSel := rfl
@[simp] theorem cancelCommit_backup (s : State) : (cancelCommit s).backup = s.backup := rfl
@[simp] theorem cancelCommit_curBaud (s : State) : (cancelCommit s).curBaud = s.curBaud := rfl
@[simp] theorem cancelCommit_prevBaud (s : State) : (cancelCommit s).prevBaud = s.prevBaud := rfl
@[simp] theorem cancelCommit_curDtr (s : State) : (cancelCommit s).curDtr = s.curDtr := rfl
@[simp] theorem cancelCommit_resetSeen (s : State) : (cancelCommit s).resetSeen = s.resetSeen := rfl
@[simp] theorem cancelCommit_pmem (s : State) :
    (cancelCommit s).pmem = s.pmem.write16 s.cfg.byteOrder (slotAddr s.cfg s.slotSel) s.clearValue := rfl
@[simp] theorem cancelCommit_prog (s : State) : (cancelCommit s).prog = s.prog := rfl
@[simp] theorem cancelCommit_trace (s : State) :
    (cancelCommit s).trace = s.trace ++ [.rt .startAbsorb] ++ [.pmw (slotAddr s.cfg s.slotSel) s.clearValue] := rfl
@[simp] theorem cancelCommit_inputs (s : State) : (cancelCommit s).inputs = s.inputs := rfl

/-! ### armCommit -/

@[simp] theorem armCommit_cfg (s : State) : (armCommit s).cfg = s.cfg := rfl
@[simp] theorem armCommit_store (s : State) : (armCommit s).store = s.store := rfl
@[simp] theorem armCommit_wrPtr (s : State) : (armCommit s).wrPtr = s.wrPtr := rfl
@[simp] theorem armCommit_rdPtr (s : State) : (armCommit s).rdPtr = s.rdPtr := rfl
@[simp] theorem armCommit_sinceRx (s : State) : (armCommit s).sinceRx = s.sinceRx := rfl
@[simp] theorem armCommit_timeout (s : State) : (armCommit s).timeout = s.timeout := rfl
@[simp] theorem armCommit_flushRem (s : State) : (armCommit s).flushRem = s.flushRem := rfl
@[simp] theorem armCommit_hsState (s : State) : (armCommit s).hsState = .armed := rfl
@[simp] theorem armCommit_slotSel (s : State) : (armCommit s).slotSel = s.slotSel := rfl
@[simp] theorem armCommit_backup (s : State) : (armCommit s).backup = s.backup := rfl
@[simp] theorem armCommit_curBaud (s : State) : (armCommit s).curBaud = s.curBaud := rfl
@[simp] theorem armCommit_prevBaud (s : State) : (armCommit s).prevBaud = s.prevBaud := rfl
@[simp] theorem armCommit_curDtr (s : State) : (armCommit s).curDtr = s.curDtr := rfl
@[simp] theorem armCommit_resetSeen (s : State) : (armCommit s).resetSeen = s.resetSeen := rfl
@[simp] theorem armCommit_pmem (s : State) :
    (armCommit s).pmem = s.pmem.write16 s.cfg.byteOrder (slotAddr s.cfg s.slotSel) s.cfg.magicKey := rfl
@[simp] theorem armCommit_prog (s : State) : (armCommit s).prog = s.prog := rfl
@[simp] theorem armCommit_trace (s : State) :
    (armCommit s).trace = s.trace ++ [.pmw (slotAddr s.cfg s.slotSel) s.cfg.magicKey] ++ [.rt .startArm] := rfl
@[simp] theorem armCommit_inputs (s : State) : (armCommit s).inputs = s.inputs := rfl

/-! ### State.withFetchWord -/

@[simp] theorem State.withFetchWord_cfg (s : State) (nbits w : Nat) :
    (s.withFetchWord nbits w).cfg = s.cfg := rfl
@[simp] theorem State.withFetchWord_store (s : State) (nbits w : Nat) :
    (s.withFetchWord nbits w).store = s.store := rfl
@[simp] theorem State.withFetchWord_wrPtr (s : State) (nbits w : Nat) :
    (s.withFetchWord nbits w).wrPtr = s.wrPtr := rfl
@[simp] theorem State.withFetchWord_rdPtr (s : State) (nbits w : Nat) :
    (s.withFetchWord nbits w).rdPtr = s.rdPtr := rfl
@[simp] theorem State.withFetchWord_sinceRx (s : State) (nbits w : Nat) :
    (s.withFetchWord nbits w).sinceRx = s.sinceRx := rfl
@[simp] theorem State.withFetchWord_timeout (s : State) (nbits w : Nat) :
    (s.withFetchWord nbits w).timeout = s.timeout := rfl
@[simp] theorem State.withFetchWord_flushRem (s : State) (nbits w : Nat) :
    (s.withFetchWord nbits w).flushRem = s.flushRem := rfl
@[simp] theorem State.withFetchWord_hsState (s : State) (nbits w : Nat) :
    (s.withFetchWord nbits w).hsState = s.hsState := rfl
@[simp] theorem State.withFetchWord_slotSel (s : State) (nbits w : Nat) :
    (s.withFetchWord nbits w).slotSel = s.slotSel := rfl
@[simp] theorem State.withFetchWord_backup (s : State) (nbits w : Nat) :
    (s.withFetchWord nbits w).backup = s.backup := rfl
@[simp] theorem State.withFetchWord_curBaud (s : State) (nbits w : Nat) :
    (s.withFetchWord nbits w).curBaud = s.curBaud := rfl
@[simp] theorem State.withFetchWord_prevBaud (s : State) (nbits w : Nat) :
    (s.withFetchWord nbits w).prevBaud = s.prevBaud := rfl
@[simp] theorem State.withFetchWord_curDtr (s : State) (nbits w : Nat) :
    (s.withFetchWord nbits w).curDtr = s.curDtr := rfl
@[simp] theorem State.withFetchWord_resetSeen (s : State) (nbits w : Nat) :
    (s.withFetchWord nbits w).resetSeen = s.resetSeen := rfl
@[simp] theorem State.withFetchWord_pmem (s : State) (nbits w : Nat) :
    (s.withFetchWord nbits w).pmem = s.pmem := rfl
@[simp] theorem State.withFetchWord_prog (s : State) (nbits w : Nat) :
    (s.withFetchWord nbits w).prog = s.prog := rfl
@[simp] theorem State.withFetchWord_trace (s : State) (nbits w : Nat) :
    (s.withFetchWord nbits w).trace = s.trace := rfl
@[simp] theorem State.withFetchWord_inputs (s : State) (nbits w : Nat) :
    (s.withFetchWord nbits w).inputs = .word (BitVec.ofNat 64 (w % 2 ^ nbits)) :: s.inputs := rfl

end Sys2Proof.Machine
end

