-- ==== Sys2Proof/Laws/Ops.lean ====
section
/-!
SUPPORT. One lemma for each shared operation that says once what it can do: pointer arithmetic, the
ring-buffer primitives, `require`, and the handshake's arm and cancel in closed form.
-/

namespace Sys2Proof.Machine

/-! ### Pointer arithmetic (10_state.md R21, R23) -/

theorem wrapSubW_lt (w a b : Nat) : wrapSubW w a b < 2 ^ w := Nat.mod_lt _ (Nat.two_pow_pos w)

/-- The difference of two pointers that fit their width, without a modulus. -/
theorem wrapSubW_of_lt {w a b : Nat} (ha : a < 2 ^ w) (hb : b < 2 ^ w) :
    wrapSubW w a b = if b ≤ a then a - b else a + 2 ^ w - b := by
  rw [wrapSubW, wrapW, Nat.mod_eq_of_lt hb]
  split
  · rw [show a + 2 ^ w - b = a - b + 2 ^ w by omega, Nat.add_mod_right, Nat.mod_eq_of_lt (by omega)]
  · rw [Nat.mod_eq_of_lt (by omega)]

/-- A pointer advanced by one, without a modulus. -/
theorem wrapW_succ_of_lt {w a : Nat} (ha : a < 2 ^ w) :
    wrapW w (a + 1) = if a + 1 = 2 ^ w then 0 else a + 1 := by
  rw [wrapW]
  split
  · next h => rw [h, Nat.mod_self]
  · rw [Nat.mod_eq_of_lt (by omega)]

/-- Advancing the write pointer raises the difference by one. -/
theorem wrapSubW_succ_left {w a b : Nat} (ha : a < 2 ^ w) (hb : b < 2 ^ w)
    (h : wrapSubW w a b + 1 < 2 ^ w) : wrapSubW w (wrapW w (a + 1)) b = wrapSubW w a b + 1 := by
  rw [wrapSubW_of_lt ha hb] at h ⊢
  rw [wrapW_succ_of_lt ha]
  have hp := Nat.two_pow_pos w
  by_cases h₁ : a + 1 = 2 ^ w
  · rw [if_pos h₁, wrapSubW_of_lt hp hb]
    split_ifs at h ⊢ <;> omega
  · rw [if_neg h₁, wrapSubW_of_lt (by omega) hb]
    split_ifs at h ⊢ <;> omega

/-- Advancing the read pointer lowers a positive difference by one. -/
theorem wrapSubW_succ_right {w a b : Nat} (ha : a < 2 ^ w) (hb : b < 2 ^ w)
    (h : 0 < wrapSubW w a b) : wrapSubW w a (wrapW w (b + 1)) = wrapSubW w a b - 1 := by
  rw [wrapSubW_of_lt ha hb] at h ⊢
  rw [wrapW_succ_of_lt hb]
  have hp := Nat.two_pow_pos w
  by_cases h₁ : b + 1 = 2 ^ w
  · rw [if_pos h₁, wrapSubW_of_lt ha hp]
    split_ifs at h ⊢ <;> omega
  · rw [if_neg h₁, wrapSubW_of_lt ha (by omega)]
    split_ifs at h ⊢ <;> omega

/-- The read pointer advanced by the difference is the write pointer. -/
theorem wrapW_add_wrapSubW {w a b : Nat} (ha : a < 2 ^ w) (hb : b < 2 ^ w) :
    wrapW w (b + wrapSubW w a b) = a := by
  rw [wrapSubW_of_lt ha hb, wrapW]
  split
  · rw [show b + (a - b) = a by omega, Nat.mod_eq_of_lt ha]
  · rw [show b + (a + 2 ^ w - b) = a + 2 ^ w by omega, Nat.add_mod_right, Nat.mod_eq_of_lt ha]

/-- The index of a pointer does not see the wrap bit (20_memory.md R51). -/
theorem storeIndex_wrapW_pw (c : Config) (p : Nat) : storeIndex c (wrapW c.pw p) = storeIndex c p := by
  rw [storeIndex, storeIndex, wrapW, wrapW, wrapW]
  exact Nat.mod_mod_of_dvd p (pow_dvd_pow 2 (Nat.le_succ c.k))

theorem storeIndex_lt (c : Config) (p : Nat) : storeIndex c p < c.capacity :=
  Nat.mod_lt _ (Nat.two_pow_pos c.k)

/-- Entries less than N apart have different indices. -/
theorem storeIndex_inj {c : Config} {p i j : Nat} (hi : i < c.capacity) (hj : j < c.capacity)
    (h : storeIndex c (p + i) = storeIndex c (p + j)) : i = j := by
  have h' : p + i ≡ p + j [MOD 2 ^ c.k] := h
  exact Nat.ModEq.eq_of_lt_of_lt (Nat.ModEq.add_left_cancel' p h') hi hj

theorem two_pow_pw (c : Config) : 2 ^ c.pw = 2 * c.capacity := by
  rw [Config.pw, Config.capacity, pow_succ, Nat.mul_comm]

theorem capacity_pos (c : Config) : 0 < c.capacity := Nat.two_pow_pos c.k

theorem State.count_lt (s : State) : s.count < 2 ^ s.cfg.pw := wrapSubW_lt _ _ _

/-! ### The flags as propositions (10_state.md R25) -/

@[simp] theorem State.isEmpty_iff (s : State) : s.isEmpty = true ↔ s.count = 0 := by
  simp [State.isEmpty]

@[simp] theorem State.isFull_iff (s : State) : s.isFull = true ↔ s.count = s.cfg.capacity := by
  simp [State.isFull]

@[simp] theorem State.busy_iff (s : State) : s.busy = true ↔ 0 < s.flushRem := by simp [State.busy]

theorem State.flushCond_iff (s : State) : s.flushCond = true ↔
    (0 < s.count ∧ s.timeout ≤ s.sinceRx) ∨ s.cfg.capacity / 2 < s.count := by
  simp [State.flushCond, State.timeoutDue, State.halfExceeded]

theorem State.handshakeReady_iff (s : State) : s.handshakeReady = true ↔ s.hsState ≠ .cancelling := by
  cases h : s.hsState <;> simp [State.handshakeReady, h]

/-- The arm condition: exactly 1200 baud and DTR deasserted (41_handshake.md R123). -/
theorem State.armCond_iff (s : State) : s.armCond = true ↔ s.curBaud = armBaud ∧ s.curDtr = false := by
  simp [State.armCond]

/-- What cancel writes, as R130 gives it. -/
theorem State.clearValue_eq (s : State) :
    s.clearValue = if s.slotSel = .legacy then s.backup else 0x0000 := by
  cases h : s.slotSel <;> simp [State.clearValue, h]

/-! ### Sequencing -/

@[simp] theorem require_eq_next_iff (i : Instr) (s : State) (r : Result) (t : State) :
    require i s r = .next t ↔ enabled i s = true ∧ r = .next t := by
  cases h : enabled i s <;> simp [require, h]

theorem require_of_enabled {i : Instr} {s : State} (h : enabled i s = true) (r : Result) :
    require i s r = r := by simp [require, h]

theorem require_of_not_enabled {i : Instr} {s : State} (h : enabled i s = false) (r : Result) :
    require i s r = .fault .protocolViolation := by simp [require, h]

@[simp] theorem orFault_ok {α : Type} (a : α) (next : α → Result) : orFault (.ok a) next = next a := rfl

@[simp] theorem orFault_error {α : Type} (f : Fault) (next : α → Result) :
    orFault (.error f) next = .fault f := rfl

@[simp] theorem andThen_next (s : State) (f : State → Result) : andThen (.next s) f = f s := rfl

theorem andThen_eq_next_iff (r : Result) (f : State → Result) (t : State) :
    andThen r f = .next t ↔ ∃ s, r = .next s ∧ f s = .next t := by
  cases r <;> simp [andThen]

@[simp] theorem runOps_nil (s : State) : runOps [] s = .next s := rfl

theorem runOps_cons (i : Instr) (is : List Instr) (s : State) :
    runOps (i :: is) s = andThen (exec i s) (runOps is) := rfl

theorem runOps_append (is js : List Instr) (s : State) :
    runOps (is ++ js) s = andThen (runOps is s) (runOps js) := by
  induction is generalizing s with
  | nil => rfl
  | cons i is ih =>
    rw [List.cons_append, runOps_cons, runOps_cons]
    cases h : exec i s with
    | next t => exact ih t
    | fault e => rfl
    | refused e => rfl

/-! ### The ring-buffer primitives (40_ring_buffer.md) -/

/-- insert on a full buffer: refused, nothing changed (R111). -/
theorem fifoInsert_of_full {s : State} (h : s.isFull = true) (b : Byte) :
    fifoInsert b s = (false, s) := by simp [fifoInsert, h]

/-- insert elsewhere: one entry written, wr_ptr advanced (R102). -/
theorem fifoInsert_of_not_full {s : State} (h : s.isFull = false) (b : Byte) :
    fifoInsert b s = (true, { s with store := s.store.set (storeIndex s.cfg s.wrPtr) b,
                                     wrPtr := nextPtr s.cfg s.wrPtr }) := by simp [fifoInsert, h]

/-- peek answers a byte exactly where the buffer is not empty and the head entry holds it (R104). -/
theorem fifoPeek_eq_ok_iff (s : State) (b : Byte) :
    fifoPeek s = .ok b ↔ 0 < s.count ∧ s.headByte? = some b := by
  unfold fifoPeek
  by_cases h : s.count = 0
  · simp [State.isEmpty, h]
  · cases hb : s.headByte? <;> simp [State.isEmpty, h, Nat.pos_of_ne_zero h]

/-- remove answers as peek does, with rd_ptr advanced and nothing else changed (R105, R110). -/
theorem fifoRemove_eq_ok_iff (s : State) (b : Byte) (t : State) :
    fifoRemove s = .ok (b, t) ↔
      fifoPeek s = .ok b ∧ t = { s with rdPtr := nextPtr s.cfg s.rdPtr } := by
  rw [fifoPeek_eq_ok_iff]
  unfold fifoRemove
  by_cases h : s.count = 0
  · simp [State.isEmpty, h]
  · cases hb : s.headByte? <;> simp [State.isEmpty, h, Nat.pos_of_ne_zero h, eq_comm]

/-! ### Arm and cancel in closed form (41_handshake.md) -/

/-- A fresh arm with the legacy slot reads the value about to be displaced (R127). -/
def freshLegacy (s : State) : Prop := s.hsState = .idle ∧ s.slotSel = .legacy

theorem armCapture_of_fresh {s : State} (h : freshLegacy s) :
    armCapture s = { s with backup := s.pmem16 s.cfg.legacySlotAddr,
                            trace := s.trace ++ [.pmr s.cfg.legacySlotAddr (s.pmem16 s.cfg.legacySlotAddr)] } :=
  if_pos h

theorem armCapture_of_not_fresh {s : State} (h : ¬ freshLegacy s) : armCapture s = s := if_neg h

/-- The second half of arm writes the sentinel and nothing of the FIFO or the registers but hs_state. -/
theorem armCommit_eq (s : State) :
    armCommit s = { s with hsState := .armed,
                           pmem := s.pmem.write16 s.cfg.byteOrder (slotAddr s.cfg s.slotSel) s.cfg.magicKey,
                           trace := s.trace ++ [.pmw (slotAddr s.cfg s.slotSel) s.cfg.magicKey,
                                                .rt .startArm] } := by
  simp [armCommit, memWrite, State.emit]

/-- cancel in closed form (R130). -/
theorem cancel_eq (s : State) :
    cancel s = { s with hsState := .idle,
                        pmem := s.pmem.write16 s.cfg.byteOrder (slotAddr s.cfg s.slotSel) s.clearValue,
                        trace := s.trace ++ [.rt .cancel, .rt .startAbsorb,
                                             .pmw (slotAddr s.cfg s.slotSel) s.clearValue] } := by
  simp [cancel, cancelCommit, cancelBegin, memWrite, State.emit, State.clearValue]

end Sys2Proof.Machine
end

