-- ==== Sys2Proof/Laws/Cycle.lean ====
section
/-!
SUPPORT. The FIFO operations and the handshake apart from each other (41_handshake.md R136): what a FIFO
operation reads and leaves, said once, and the FIFO part of a clock cycle as a run of operations
(30_encoding.md R84).
-/

namespace Sys2Proof.Machine

/-- The operations that read and write no handshake state (R136). -/
def isFifoOp (i : Instr) : Bool :=
  match i with
  | .tick | .rxb _ | .poll | .srsp _ => true
  | .lenc _ _ _ _ | .ctrl _ _ | .rst => false

/-- The two host events, which read and write no FIFO, timing or flush state (R136). -/
def isHandshakeOp (i : Instr) : Bool :=
  match i with
  | .lenc _ _ _ _ | .ctrl _ _ => true
  | .tick | .rxb _ | .poll | .srsp _ | .rst => false

/-- A result with the handshake registers, persistence memory and trace of another state put in. -/
def withHandshakeOf (h : State) (s : State) : State :=
  { s with hsState := h.hsState, slotSel := h.slotSel, backup := h.backup, curBaud := h.curBaud,
           prevBaud := h.prevBaud, curDtr := h.curDtr, pmem := h.pmem, trace := h.trace }

@[simp] theorem withHandshakeOf_cfg (h s : State) : (withHandshakeOf h s).cfg = s.cfg := rfl
@[simp] theorem withHandshakeOf_store (h s : State) : (withHandshakeOf h s).store = s.store := rfl
@[simp] theorem withHandshakeOf_wrPtr (h s : State) : (withHandshakeOf h s).wrPtr = s.wrPtr := rfl
@[simp] theorem withHandshakeOf_rdPtr (h s : State) : (withHandshakeOf h s).rdPtr = s.rdPtr := rfl
@[simp] theorem withHandshakeOf_sinceRx (h s : State) : (withHandshakeOf h s).sinceRx = s.sinceRx := rfl
@[simp] theorem withHandshakeOf_timeout (h s : State) : (withHandshakeOf h s).timeout = s.timeout := rfl
@[simp] theorem withHandshakeOf_flushRem (h s : State) : (withHandshakeOf h s).flushRem = s.flushRem := rfl
@[simp] theorem withHandshakeOf_hsState (h s : State) : (withHandshakeOf h s).hsState = h.hsState := rfl
@[simp] theorem withHandshakeOf_slotSel (h s : State) : (withHandshakeOf h s).slotSel = h.slotSel := rfl
@[simp] theorem withHandshakeOf_backup (h s : State) : (withHandshakeOf h s).backup = h.backup := rfl
@[simp] theorem withHandshakeOf_curBaud (h s : State) : (withHandshakeOf h s).curBaud = h.curBaud := rfl
@[simp] theorem withHandshakeOf_prevBaud (h s : State) : (withHandshakeOf h s).prevBaud = h.prevBaud := rfl
@[simp] theorem withHandshakeOf_curDtr (h s : State) : (withHandshakeOf h s).curDtr = h.curDtr := rfl
@[simp] theorem withHandshakeOf_resetSeen (h s : State) :
    (withHandshakeOf h s).resetSeen = s.resetSeen := rfl
@[simp] theorem withHandshakeOf_pmem (h s : State) : (withHandshakeOf h s).pmem = h.pmem := rfl
@[simp] theorem withHandshakeOf_prog (h s : State) : (withHandshakeOf h s).prog = s.prog := rfl
@[simp] theorem withHandshakeOf_trace (h s : State) : (withHandshakeOf h s).trace = h.trace := rfl
@[simp] theorem withHandshakeOf_inputs (h s : State) : (withHandshakeOf h s).inputs = s.inputs := rfl
@[simp] theorem withHandshakeOf_self (s : State) : withHandshakeOf s s = s := rfl

@[simp] theorem withHandshakeOf_count (h s : State) : (withHandshakeOf h s).count = s.count := rfl
@[simp] theorem withHandshakeOf_isEmpty (h s : State) : (withHandshakeOf h s).isEmpty = s.isEmpty := rfl
@[simp] theorem withHandshakeOf_isFull (h s : State) : (withHandshakeOf h s).isFull = s.isFull := rfl
@[simp] theorem withHandshakeOf_flushCond (h s : State) :
    (withHandshakeOf h s).flushCond = s.flushCond := rfl
@[simp] theorem withHandshakeOf_headByte? (h s : State) :
    (withHandshakeOf h s).headByte? = s.headByte? := rfl

/-! ### What each FIFO operation does, in closed form (42_flush_scheduler.md) -/

/-- RXB: the two timing registers, the insert or the drop, and the one event (R153). -/
theorem rxbEffect_eq (d : Byte) (s : State) :
    rxbEffect d s = { s with
      timeout := if s.isEmpty then s.timeout else satW s.cfg.tw (2 * s.sinceRx), sinceRx := 0
      store := if s.isFull then s.store else s.store.set (storeIndex s.cfg s.wrPtr) d
      wrPtr := if s.isFull then s.wrPtr else nextPtr s.cfg s.wrPtr
      trace := s.trace ++ [if s.isFull then .rxDrop d else .rxOk d] } := by
  have ht : rxbTimeout s =
      { s with timeout := if s.isEmpty then s.timeout else satW s.cfg.tw (2 * s.sinceRx) } := by
    unfold rxbTimeout; split <;> rfl
  have hf : (rxbTimeout s).isFull = s.isFull := by rw [ht]; rfl
  cases h : s.isFull with
  | false => simp only [rxbEffect, fifoInsert_of_not_full (hf.trans h)]; rw [ht]; rfl
  | true => simp only [rxbEffect, fifoInsert_of_full (hf.trans h)]; rw [ht]; rfl

/-- POLL: the budget and the FLUSH event where the flush condition holds (R156). -/
theorem pollEffect_eq (s : State) :
    pollEffect s = { s with flushRem := if s.flushCond then s.count else s.flushRem
                            trace := s.trace ++ if s.flushCond then [.flush s.count] else [] } := by
  unfold pollEffect; split <;> simp [State.emit]

/-- SRSP completes exactly where it is enabled and finds a byte, and then removes it or ends the flush
(R158). -/
theorem execSrsp_eq_next_iff (ok : Bool) (s t : State) :
    execSrsp ok s = .next t ↔ enabled (.srsp ok) s = true ∧ ∃ b, fifoPeek s = .ok b ∧
      t = { s with rdPtr := if ok then nextPtr s.cfg s.rdPtr else s.rdPtr
                   flushRem := if ok then s.flushRem - 1 else 0
                   trace := s.trace ++ [if ok then .txOk b else .txFail b] } := by
  rw [execSrsp, require_eq_next_iff]
  refine and_congr_right fun _ => ?_
  cases hp : fifoPeek s with
  | error e => simp [orFault]
  | ok b =>
    have hr := (fifoRemove_eq_ok_iff s b _).2 ⟨hp, rfl⟩
    cases ok <;> simp [orFault, sendDone, sendFailed, hr, State.emit, eq_comm]

/-! ### A FIFO operation beside the handshake -/

/-- What peek reads is FIFO state. -/
@[simp] theorem fifoPeek_withHandshakeOf (h s : State) : fifoPeek (withHandshakeOf h s) = fifoPeek s := rfl

/-- The enabling condition of a FIFO operation reads no handshake state. -/
theorem enabled_withHandshakeOf {f : Instr} (hf : isFifoOp f = true) (h s : State) :
    enabled f (withHandshakeOf h s) = enabled f s := by
  cases f <;> first | rfl | simp [isFifoOp] at hf

/-- A FIFO operation that completes changes FIFO and timing state and adds events, and nothing else; and
from a state with other handshake registers, persistence memory and trace it completes with the same FIFO
state and the same events (R136). -/
theorem exec_fifo_next {f : Instr} (hf : isFifoOp f = true) {s t : State} (ht : exec f s = .next t) :
    ∃ ef, withHandshakeOf { s with trace := s.trace ++ ef } t = t ∧ t.cfg = s.cfg ∧
      t.resetSeen = s.resetSeen ∧ t.prog = s.prog ∧ t.inputs = s.inputs ∧
      ∀ h, exec f (withHandshakeOf h s) =
        .next (withHandshakeOf { h with trace := h.trace ++ ef } t) := by
  cases f with
  | tick =>
    obtain ⟨he, h⟩ := (require_eq_next_iff _ _ _ _).1 ht
    cases h
    exact ⟨[], by simp [withHandshakeOf], rfl, rfl, rfl, rfl, fun h =>
      (require_of_enabled ((enabled_withHandshakeOf hf h s).trans he) _).trans (by simp [withHandshakeOf])⟩
  | rxb d =>
    obtain ⟨he, h⟩ := (require_eq_next_iff _ _ _ _).1 ht
    cases h
    rw [rxbEffect_eq]
    refine ⟨[if s.isFull then .rxDrop d else .rxOk d], rfl, rfl, rfl, rfl, rfl, fun h =>
      (require_of_enabled ((enabled_withHandshakeOf hf h s).trans he) _).trans ?_⟩
    rw [rxbEffect_eq]; rfl
  | poll =>
    obtain ⟨he, h⟩ := (require_eq_next_iff _ _ _ _).1 ht
    cases h
    rw [pollEffect_eq]
    refine ⟨if s.flushCond then [.flush s.count] else [], rfl, rfl, rfl, rfl, rfl, fun h =>
      (require_of_enabled ((enabled_withHandshakeOf hf h s).trans he) _).trans ?_⟩
    rw [pollEffect_eq]; rfl
  | srsp ok =>
    obtain ⟨he, b, hb, rfl⟩ := (execSrsp_eq_next_iff ok s t).1 ht
    exact ⟨[if ok then .txOk b else .txFail b], rfl, rfl, rfl, rfl, rfl, fun h =>
      (execSrsp_eq_next_iff ok _ _).2 ⟨(enabled_withHandshakeOf hf h s).trans he, b, hb, rfl⟩⟩
  | lenc => simp [isFifoOp] at hf
  | ctrl => simp [isFifoOp] at hf
  | rst => simp [isFifoOp] at hf

/-! ### A handshake operation beside the FIFO -/

/-- arm changes handshake state and adds events, the same whatever the FIFO state and the trace (R127). -/
theorem arm_frame (s : State) : ∃ e, arm s = withHandshakeOf { arm s with trace := s.trace ++ e } s ∧
    ∀ t tr, t.cfg = s.cfg → arm (withHandshakeOf { s with trace := tr } t) =
      withHandshakeOf { arm s with trace := tr ++ e } t := by
  by_cases h : freshLegacy s
  · refine ⟨[.pmr s.cfg.legacySlotAddr (s.pmem16 s.cfg.legacySlotAddr),
      .pmw (slotAddr s.cfg s.slotSel) s.cfg.magicKey, .rt .startArm], ?_, fun t tr hc => ?_⟩
    · rw [arm, armCapture_of_fresh h, armCommit_eq]; simp [withHandshakeOf]
    · rw [arm, armCapture_of_fresh (s := withHandshakeOf { s with trace := tr } t) h, armCommit_eq, arm,
        armCapture_of_fresh h, armCommit_eq]
      simp [withHandshakeOf, State.pmem16, hc]
  · refine ⟨[.pmw (slotAddr s.cfg s.slotSel) s.cfg.magicKey, .rt .startArm], ?_, fun t tr hc => ?_⟩
    · rw [arm, armCapture_of_not_fresh h, armCommit_eq]; simp [withHandshakeOf]
    · rw [arm, armCapture_of_not_fresh (s := withHandshakeOf { s with trace := tr } t) h, armCommit_eq, arm,
        armCapture_of_not_fresh h, armCommit_eq]
      simp [withHandshakeOf, hc]

/-- cancel changes handshake state and adds events, the same whatever the FIFO state and the trace (R130). -/
theorem cancel_frame (s : State) : ∃ e, cancel s = withHandshakeOf { cancel s with trace := s.trace ++ e } s ∧
    ∀ t tr, t.cfg = s.cfg → cancel (withHandshakeOf { s with trace := tr } t) =
      withHandshakeOf { cancel s with trace := tr ++ e } t := by
  refine ⟨[.rt .cancel, .rt .startAbsorb, .pmw (slotAddr s.cfg s.slotSel) s.clearValue], ?_,
    fun t tr hc => ?_⟩
  · rw [cancel_eq]; simp [withHandshakeOf]
  · rw [cancel_eq, cancel_eq]; simp [withHandshakeOf, State.clearValue, hc]

/-- Exactly one of the two, as each says (R126). -/
theorem armOrCancel_frame (arms : Bool) (s : State) :
    ∃ e, armOrCancel arms s = withHandshakeOf { armOrCancel arms s with trace := s.trace ++ e } s ∧
      ∀ t tr, t.cfg = s.cfg → armOrCancel arms (withHandshakeOf { s with trace := tr } t) =
        withHandshakeOf { armOrCancel arms s with trace := tr ++ e } t := by
  cases arms
  · exact cancel_frame s
  · exact arm_frame s

/-- A handshake operation that completes changes handshake state and adds events, and nothing else; and
from a state with other FIFO state and another trace it completes with the same handshake state and the
same events (R136). -/
theorem exec_handshake_next {i : Instr} (hi : isHandshakeOp i = true) {s t : State}
    (ht : exec i s = .next t) :
    ∃ e, t = withHandshakeOf { t with trace := s.trace ++ e } s ∧
      ∀ u tr, u.cfg = s.cfg → u.resetSeen = s.resetSeen →
        exec i (withHandshakeOf { s with trace := tr } u) =
          .next (withHandshakeOf { t with trace := tr ++ e } u) := by
  cases i with
  | lenc baud par stop2 dbits =>
    obtain ⟨he, h⟩ := (require_eq_next_iff _ _ _ _).1 ht
    cases h
    obtain ⟨e, h₁, h₂⟩ := armOrCancel_frame (lencLatch baud par stop2 dbits s).lencArms
      (lencLatch baud par stop2 dbits s)
    refine ⟨.leFwd baud par stop2 dbits :: e,
      h₁.trans (by simp [withHandshakeOf, lencLatch, lencEffect]), fun u tr hc hr => ?_⟩
    have harms : (lencLatch baud par stop2 dbits (withHandshakeOf { s with trace := tr } u)).lencArms =
        (lencLatch baud par stop2 dbits s).lencArms := congrArg (fun c : Config => c.leEventArms && _) hc
    have hen : enabled (.lenc baud par stop2 dbits) (withHandshakeOf { s with trace := tr } u) = true := by
      show (u.resetSeen && s.handshakeReady) = true
      rw [hr]; exact he
    refine (require_of_enabled hen _).trans (congrArg Host.Outcome.next ?_)
    have hl : lencLatch baud par stop2 dbits (withHandshakeOf { s with trace := tr } u) =
        withHandshakeOf { lencLatch baud par stop2 dbits s with
          trace := tr ++ [.leFwd baud par stop2 dbits] } u := rfl
    rw [lencEffect, harms, hl, h₂ u _ hc, List.append_assoc]
    rfl
  | ctrl dtr rts =>
    obtain ⟨he, h⟩ := (require_eq_next_iff _ _ _ _).1 ht
    cases h
    obtain ⟨e, h₁, h₂⟩ := armOrCancel_frame (ctrlLatch dtr s).armCond (ctrlLatch dtr s)
    refine ⟨e, h₁.trans (by simp [withHandshakeOf, ctrlLatch, ctrlEffect]), fun u tr hc hr => ?_⟩
    have hen : enabled (.ctrl dtr rts) (withHandshakeOf { s with trace := tr } u) = true := by
      show (u.resetSeen && s.handshakeReady) = true
      rw [hr]; exact he
    exact (require_of_enabled hen _).trans (congrArg Host.Outcome.next (h₂ u tr hc))
  | tick => simp [isHandshakeOp] at hi
  | rxb => simp [isHandshakeOp] at hi
  | poll => simp [isHandshakeOp] at hi
  | srsp => simp [isHandshakeOp] at hi
  | rst => simp [isHandshakeOp] at hi

/-! ### What an earlier cycle left for this one (30_encoding.md R87, R88) -/

/-- With nothing left, the cycle begins on the state itself. -/
@[simp] theorem begun_of_none (s : State) :
    CycleState.begun { s := s, phase := .none, probeDue := false } = s := rfl

/-- Doing what was left changes no FIFO state. -/
theorem begun_fifo (c : CycleState) : c.begun = withHandshakeOf c.begun c.s := by
  obtain ⟨s, phase, due⟩ := c
  cases phase <;> cases due <;>
    simp [CycleState.begun, CycleState.hostDone, withHandshakeOf, armCommit, cancelCommit, memWrite, probe,
      progRead, State.emit]

@[simp] theorem begun_cfg (c : CycleState) : c.begun.cfg = c.s.cfg := by rw [begun_fifo]; rfl
@[simp] theorem begun_flushRem (c : CycleState) : c.begun.flushRem = c.s.flushRem := by
  rw [begun_fifo]; rfl
@[simp] theorem begun_resetSeen (c : CycleState) : c.begun.resetSeen = c.s.resetSeen := by
  rw [begun_fifo]; rfl

/-- The FIFO operations of a cycle are those of the state it begins on. -/
@[simp] theorem fifoOps_begun (p : PortsIn) (c : CycleState) : p.fifoOps c.begun = p.fifoOps c.s := by
  simp [PortsIn.fifoOps]

/-- The two halves of a host event are the whole: what its first cycle leaves, once done, is the effect of
LENC or CTRL (R87, R124, R125). -/
theorem hostFirst_hostDone (p : PortsIn) (s : State) (due : Bool) :
    CycleState.hostDone { s := (hostFirst p s).1, phase := (hostFirst p s).2, probeDue := due } =
      if p.evKind = true then ctrlEffect p.evDtr s
      else lencEffect p.evBaud p.evPar p.evStop2 p.evDbits s := by
  cases hk : p.evKind <;> cases ha : hostArms p s <;>
    simp_all [hostFirst, hostArms, hostLatch, CycleState.hostDone, ctrlEffect, lencEffect, armOrCancel, arm,
      cancel]

/-- An accepted host event is the operation its port presents. -/
theorem exec_hostOp (p : PortsIn) {s : State} (hs : s.resetSeen = true) (hr : s.handshakeReady = true) :
    exec p.hostOp s = .next (if p.evKind = true then ctrlEffect p.evDtr s
      else lencEffect p.evBaud p.evPar p.evStop2 p.evDbits s) := by
  cases hk : p.evKind <;>
    simp [PortsIn.hostOp, hk, exec, execCtrl, execLenc, require, enabled, hs, hr]

/-! ### The FIFO part of a clock cycle (30_encoding.md R84) -/

/-- Two continuations that agree on the next state give the same result. -/
theorem andThen_congr {r : Result} {f g : State → Result} (h : ∀ s, r = .next s → f s = g s) :
    andThen r f = andThen r g := by
  cases r with
  | next s => exact h s rfl
  | fault e => rfl
  | refused e => rfl

/-- A presented operation that is enabled is run. -/
theorem present_of_enabled {i : Instr} {s : State} (h : enabled i s = true) (valid : Bool) :
    present i valid s = runOps (if valid = true then [i] else []) s := by
  cases valid
  · rfl
  · simp only [present, h, if_true, runOps_cons, Bool.and_self]
    cases exec i s <;> rfl

/-- The consumer operation of a cycle, after the first reset. -/
theorem consumerPart_eq_runOps (p : PortsIn) {s : State} (hs : s.resetSeen = true) :
    consumerPart p s = runOps (if 0 < s.flushRem then (if p.txDone = true then [.srsp p.txOk] else [])
      else (if p.pollValid = true then [.poll] else [])) s := by
  unfold consumerPart
  by_cases h : 0 < s.flushRem
  · rw [if_pos ((State.busy_iff s).2 h), if_pos h, present_of_enabled (by simp [enabled, hs, h])]
  · rw [if_neg (mt (State.busy_iff s).1 h), if_neg h,
      present_of_enabled (by simp [enabled, hs, Nat.eq_zero_of_not_pos h])]

/-- FIFO operations that complete leave reset_seen as it was. -/
theorem runOps_fifo_resetSeen {is : List Instr} (his : ∀ i ∈ is, isFifoOp i = true) {s t : State}
    (ht : runOps is s = .next t) : t.resetSeen = s.resetSeen := by
  induction is generalizing s with
  | nil => cases ht; rfl
  | cons i is ih =>
    obtain ⟨u, hu, hr⟩ := (andThen_eq_next_iff _ _ _).1 ht
    obtain ⟨_, _, _, hs, _⟩ := exec_fifo_next (his i (by simp)) hu
    exact (ih (fun j hj => his j (by simp [hj])) hr).trans hs

/-- After the first reset the FIFO part of a cycle is the run of the operations the cycle accepts. -/
theorem fifoPart_eq_runOps (p : PortsIn) {s : State} (hs : s.resetSeen = true) :
    fifoPart p s = runOps (p.fifoOps s) s := by
  have tick_next {u : State} (h : runOps (if p.tick = true then [.tick] else []) s = .next u) :
      u.resetSeen = true ∧ u.flushRem = s.flushRem := by
    cases hp : p.tick <;> simp [hp, runOps_cons, exec, execTick, require, enabled, hs] at h <;>
      simp [← h, hs]
  have before : beforeRxb p s = runOps ((if p.tick = true then [.tick] else []) ++
      (if 0 < s.flushRem then (if p.txDone = true then [.srsp p.txOk] else [])
        else (if p.pollValid = true then [.poll] else []))) s := by
    rw [runOps_append, beforeRxb, present_of_enabled (by simp [enabled, hs])]
    refine andThen_congr fun u hu => ?_
    rw [consumerPart_eq_runOps p (tick_next hu).1, (tick_next hu).2]
  rw [PortsIn.fifoOps, runOps_append, fifoPart, before]
  refine andThen_congr fun u hu => present_of_enabled ?_ _
  refine (runOps_fifo_resetSeen (fun i hi => ?_) hu).trans hs
  simp only [List.mem_append] at hi
  split_ifs at hi <;> simp at hi <;> first | (subst hi; rfl) | (rcases hi with rfl | rfl <;> rfl)

end Sys2Proof.Machine
end

