-- ==== Sys2Proof/Laws/PerInstr.lean ====
section
/-!
SUPPORT. Statements made per operation. `Encoding`: the word the encoder gives is a well-formed operation
word, its opcode in the map and its reserved bits 0 (30_encoding.md R70, R71, R80).
-/

namespace Sys2Proof.Laws

/-- The encoder's word of `i` carries `i`'s opcode and has no reserved bit set (R70, R71). -/
def Encoding.Statement (i : Instr) : Prop :=
  OpWord.opcodeBits (encode i) = (opcodeOf i).bits ∧ encode i &&& (opcodeOf i).format.reserved = 0

/-- Bits 63 to 60 of an encoded operation are its opcode, when its fields stop below bit 60. -/
theorem opcodeBits_encode {i : Instr} (h : ∀ n, 60 ≤ n → (fieldBits i).getLsbD n = false) :
    OpWord.opcodeBits (encode i) = (opcodeOf i).bits := by
  apply BitVec.eq_of_getLsbD_eq
  intro n hn
  rw [OpWord.opcodeBits, encode, BitVec.getLsbD_extractLsb', BitVec.getLsbD_or,
    h (60 + n) (Nat.le_add_right 60 n), Bool.or_false]
  have hw : 60 + n < 64 := by omega
  simp [opcodeWord, hn, hw]

theorem Encoding.tick : Encoding.Statement .tick := by
  constructor <;> decide

theorem Encoding.rxb (d : Byte) : Encoding.Statement (.rxb d) := by
  refine ⟨opcodeBits_encode fun n hn => ?_, BitVec.eq_of_getLsbD_eq fun n hn => ?_⟩
  · simp [fieldBits, BitVec.getLsbD_of_ge d n (by omega)]
  · interval_cases n <;>
      simp [encode, opcodeOf, opcodeWord, fieldBits, Opcode.bits, Opcode.format, Format.reserved]

theorem Encoding.poll : Encoding.Statement .poll := by
  constructor <;> decide

theorem Encoding.srsp (ok : Bool) : Encoding.Statement (.srsp ok) := by
  cases ok <;> constructor <;> decide

theorem Encoding.lenc (baud : Baud) (par : BitVec 2) (stop2 : BitVec 1) (dbits : BitVec 4) :
    Encoding.Statement (.lenc baud par stop2 dbits) := by
  refine ⟨opcodeBits_encode fun n hn => ?_, BitVec.eq_of_getLsbD_eq fun n hn => ?_⟩
  · simp [fieldBits, BitVec.getLsbD_of_ge baud n (by omega), BitVec.getLsbD_of_ge par (n - 32) (by omega),
      BitVec.getLsbD_of_ge stop2 (n - 34) (by omega), BitVec.getLsbD_of_ge dbits (n - 35) (by omega)]
  · interval_cases n <;>
      simp [encode, opcodeOf, opcodeWord, fieldBits, Opcode.bits, Opcode.format, Format.reserved]

theorem Encoding.ctrl (dtr rts : Bool) : Encoding.Statement (.ctrl dtr rts) := by
  cases dtr <;> cases rts <;> constructor <;> decide

theorem Encoding.rst : Encoding.Statement .rst := by
  constructor <;> decide

end Sys2Proof.Laws
end

