-- ==== Sys2Proof/Laws/Queue.lean ====
section
/-!
SUPPORT. The ring buffer as a queue: what writing the entry at the write pointer and advancing the read
pointer do to the registers' invariant, the count and the contents (40_ring_buffer.md R102, R105, R109),
and how one more event changes what a trace says was received and sent.
-/

namespace Sys2Proof.Machine

/-- The entry at the write pointer is the one `count` after the read pointer. -/
theorem storeIndex_rdPtr_add_count {s : State} (h : s.RegInv) :
    storeIndex s.cfg (s.rdPtr + s.count) = storeIndex s.cfg s.wrPtr := by
  rw [← storeIndex_wrapW_pw, State.count, wrapW_add_wrapSubW h.wrPtr_lt h.rdPtr_lt]

/-- The entries after an advanced read pointer are those one further on. -/
theorem storeIndex_nextPtr_add (c : Config) (p j : Nat) :
    storeIndex c (nextPtr c p + j) = storeIndex c (p + (j + 1)) := by
  have hd : 2 ^ c.k ∣ 2 ^ c.pw := pow_dvd_pow 2 (Nat.le_succ c.k)
  rw [storeIndex, storeIndex, nextPtr, wrapW, wrapW, wrapW, ← Nat.mod_add_mod _ _ j,
    Nat.mod_mod_of_dvd _ hd, Nat.mod_add_mod, Nat.add_assoc, Nat.add_comm 1 j]

/-- A non-empty buffer has a byte at its head (R108). -/
theorem exists_headByte {s : State} (h : s.RegInv) (hc : 0 < s.count) : ∃ b, s.headByte? = some b :=
  Option.ne_none_iff_exists'.1 (h.occupied 0 hc)

/-- Writing the entry at the write pointer of a buffer with room appends to the queue (R102). -/
theorem queue_append {s : State} (h : s.RegInv) (hroom : s.count ≠ s.cfg.capacity) (b : Byte) :
    State.RegInv { s with store := s.store.set (storeIndex s.cfg s.wrPtr) b, wrPtr := nextPtr s.cfg s.wrPtr } ∧
    State.count { s with store := s.store.set (storeIndex s.cfg s.wrPtr) b, wrPtr := nextPtr s.cfg s.wrPtr } =
      s.count + 1 ∧
    State.fifo { s with store := s.store.set (storeIndex s.cfg s.wrPtr) b, wrPtr := nextPtr s.cfg s.wrPtr } =
      s.fifo ++ [b] := by
  set t : State :=
    { s with store := s.store.set (storeIndex s.cfg s.wrPtr) b, wrPtr := nextPtr s.cfg s.wrPtr } with ht
  have hlt : s.count < s.cfg.capacity := lt_of_le_of_ne h.count_le hroom
  have hwide : s.count + 1 < 2 ^ s.cfg.pw := by
    have h₁ := two_pow_pw s.cfg
    have h₂ := capacity_pos s.cfg
    omega
  have hcount : t.count = s.count + 1 := wrapSubW_succ_left h.wrPtr_lt h.rdPtr_lt hwide
  have hold : ∀ j < s.count, t.store.byte? (storeIndex s.cfg (s.rdPtr + j)) =
      s.store.byte? (storeIndex s.cfg (s.rdPtr + j)) := fun j hj => by
    apply Memory.byte?_set_other
    rw [← storeIndex_rdPtr_add_count h]
    intro e
    have := storeIndex_inj hlt (by omega) e
    omega
  have hnew : t.store.byte? (storeIndex s.cfg (s.rdPtr + s.count)) = some b := by
    rw [storeIndex_rdPtr_add_count h]
    exact Memory.byte?_set_same _ _ _
  refine ⟨⟨Nat.mod_lt _ (Nat.two_pow_pos _), h.rdPtr_lt, h.sinceRx_lt, h.timeout_lt, ?_, ?_, h.hsState_ne,
    Memory.set_wf h.store_wf _ _, fun c hc => ?_, fun j hj => ?_⟩, hcount, ?_⟩
  · rw [hcount]; exact hlt
  · rw [hcount]; exact h.flushRem_le.trans (Nat.le_succ _)
  · rcases Memory.mem_set hc with rfl | hc
    · exact storeIndex_lt _ _
    · exact h.store_lt c hc
  · show t.store.byte? (storeIndex s.cfg (s.rdPtr + j)) ≠ none
    rw [hcount] at hj
    rcases Nat.lt_succ_iff_lt_or_eq.1 hj with hj | rfl
    · rw [hold j hj]; exact h.occupied j hj
    · rw [hnew]; exact Option.some_ne_none b
  · rw [State.fifo, hcount, List.range_succ, List.filterMap_append, State.fifo]
    congr 1
    · exact List.filterMap_congr fun j hj => hold j (List.mem_range.1 hj)
    · show List.filterMap (fun j => t.store.byte? (storeIndex s.cfg (s.rdPtr + j))) [s.count] = [b]
      simp [hnew]

/-- Advancing the read pointer takes the head off the queue; `n` is any budget that still fits (R105). -/
theorem queue_tail {s : State} (h : s.RegInv) (hc : 0 < s.count) {b : Byte} (hb : s.headByte? = some b)
    {n : Nat} (hn : n ≤ s.count - 1) :
    State.RegInv { s with rdPtr := nextPtr s.cfg s.rdPtr, flushRem := n } ∧
    State.count { s with rdPtr := nextPtr s.cfg s.rdPtr, flushRem := n } = s.count - 1 ∧
    s.fifo = b :: State.fifo { s with rdPtr := nextPtr s.cfg s.rdPtr, flushRem := n } := by
  set t : State := { s with rdPtr := nextPtr s.cfg s.rdPtr, flushRem := n } with ht
  have hcount : t.count = s.count - 1 := wrapSubW_succ_right h.wrPtr_lt h.rdPtr_lt hc
  refine ⟨⟨h.wrPtr_lt, Nat.mod_lt _ (Nat.two_pow_pos _), h.sinceRx_lt, h.timeout_lt, ?_, ?_, h.hsState_ne,
    h.store_wf, h.store_lt, fun j hj => ?_⟩, hcount, ?_⟩
  · rw [hcount]; exact (Nat.sub_le _ _).trans h.count_le
  · rw [hcount]; exact hn
  · show s.store.byte? (storeIndex s.cfg (nextPtr s.cfg s.rdPtr + j)) ≠ none
    rw [storeIndex_nextPtr_add]
    exact h.occupied _ (by omega)
  · obtain ⟨m, hm⟩ : ∃ m, s.count = m + 1 := ⟨s.count - 1, by omega⟩
    have hhead : s.store.byte? (storeIndex s.cfg (s.rdPtr + 0)) = some b := hb
    rw [State.fifo, hm, List.range_succ_eq_map, List.filterMap_cons, State.fifo, hcount, hm, hhead]
    simp only [List.filterMap_map, Nat.add_sub_cancel]
    congr 1
    refine List.filterMap_congr fun j _ => ?_
    show _ = s.store.byte? (storeIndex s.cfg (nextPtr s.cfg s.rdPtr + j))
    rw [storeIndex_nextPtr_add]
    rfl

/-- What one more event says was received (R163). -/
theorem receivedSinceReset_concat (t : List Event) (e : Event) :
    receivedSinceReset (t ++ [e]) =
      match e with
      | .pgr _ _ => []
      | .rxOk b => receivedSinceReset t ++ [b]
      | _ => receivedSinceReset t := by
  rw [receivedSinceReset, List.foldl_append]
  cases e <;> rfl

/-- What one more event says was sent (R163). -/
theorem sentSinceReset_concat (t : List Event) (e : Event) :
    sentSinceReset (t ++ [e]) =
      match e with
      | .pgr _ _ => []
      | .txOk b => sentSinceReset t ++ [b]
      | _ => sentSinceReset t := by
  rw [sentSinceReset, List.foldl_append]
  cases e <;> rfl

end Sys2Proof.Machine
end

