-- ==== Sys2Proof/Tests/Slice0.lean ====
section
/-!
SUPPORT. Tests of one step on small states, each with its expected result from spec/ (the vector named
in its docstring), the smoke tests of WellFormed, the decoding of words written out from 30_encoding.md,
and, for every statement with hypotheses, a state and operands that meet them (`witness_<statement>`).
-/

namespace Sys2Proof.Tests

open Sys2Proof Sys2Proof.Machine

/-! ### Small states -/

/-- K = 4, TW = 16 as in 95_test_vectors.md; the OPEN parameters are arbitrary numbers. -/
def cfg4 : Config where
  k := 4
  tw := 16
  timeoutInit := 0
  leEventArms := true
  magicKey := 0xA55A
  paw := 16
  modernSlotAddr := 0x300
  legacySlotAddr := 0x200
  pgaw := 16
  sigAddr := 0x40
  sigValue := 0x1234
  tArm := 100
  tAbsorb := 250
  byteOrder := .little
  absorbExpiryResets := false

/-- K = 1, TW = 2: N = 2, and the narrowest registers R5 allows. -/
def cfg1 : Config := { cfg4 with k := 1, tw := 2 }

/-- After RST, MODERN, with 0xABCD in the legacy slot and the signature in program memory. -/
def base : State where
  cfg := cfg4
  store := []
  wrPtr := 0
  rdPtr := 0
  sinceRx := 0
  timeout := 0
  flushRem := 0
  hsState := .idle
  slotSel := .modern
  backup := 0
  curBaud := 0
  prevBaud := 0
  curDtr := false
  resetSeen := true
  pmem := [(0x200, 0xCD), (0x201, 0xAB)]
  prog := [(0x40, 0x34), (0x41, 0x12)]
  trace := []
  inputs := []

/-- Before the first RST. -/
def unreset : State := { base with resetSeen := false }

/-- Two bytes in the buffer across the wrap of the read pointer, a flush of both in progress. -/
def wrapped : State :=
  { base with store := [(0, 0x20), (15, 0x10)], wrPtr := 1, rdPtr := 31, flushRem := 2, sinceRx := 5,
              timeout := 5 }

/-- The same two bytes with no flush in progress. -/
def queued : State := { wrapped with flushRem := 0 }

/-- N = 2 and both entries occupied, a flush of both in progress. -/
def full2 : State :=
  { base with cfg := cfg1, store := [(0, 0x61), (1, 0x62)], wrPtr := 2, rdPtr := 0, flushRem := 2,
              trace := [.rxOk 0x61, .rxOk 0x62, .flush 2] }

/-- Armed on the legacy slot with 0xABCD saved. -/
def armedLegacy : State :=
  { base with hsState := .armed, slotSel := .legacy, backup := 0xABCD, curBaud := 1200,
              pmem := [(0x200, 0x5A), (0x201, 0xA5)] }

/-- Between the two cycles of a cancel. -/
def midCancel : CycleState :=
  { s := { base with hsState := .cancelling, trace := [.rt .cancel] }, phase := .cancelSecond, probeDue := false }

/-- Whether a result is a next state with this property. -/
def nextWith (r : Result) (p : State → Bool) : Bool :=
  match r with
  | .next t => p t
  | .fault _ => false
  | .refused _ => false

/-! ### WellFormed -/

theorem test_cfg4_valid : cfg4.valid = true := by decide
theorem test_invalid_k : ({ cfg4 with k := 0 } : Config).valid = false := by decide
theorem test_invalid_tw : ({ cfg4 with tw := 1 } : Config).valid = false := by decide
theorem test_invalid_timeoutInit : ({ cfg1 with timeoutInit := 4 } : Config).valid = false := by decide
theorem test_invalid_magicKey : ({ cfg4 with magicKey := 0 } : Config).valid = false := by decide
theorem test_invalid_slots : ({ cfg4 with modernSlotAddr := 0x201 } : Config).valid = false := by decide
theorem test_invalid_paw : ({ cfg4 with paw := 9 } : Config).valid = false := by decide
theorem test_invalid_pgaw : ({ cfg4 with pgaw := 6 } : Config).valid = false := by decide
theorem test_illFormed_opcode : OpWord.wellFormed 0x8000000000000000 = false := by decide
theorem test_illFormed_reserved_bit : OpWord.wellFormed 0x5000008000000000 = false := by decide
theorem test_wellFormed_word : OpWord.wellFormed 0x5000007B000004B0 = true := by decide

/-! ### Decoding: words from 30_encoding.md R89 and 95_test_vectors.md sections 7, 8.2 -/

theorem test_decode_tick : decode 0x1000000000000000 = .ok .tick := by decide
theorem test_decode_rxb : decode 0x2000000000000041 = .ok (.rxb 0x41) := by decide
theorem test_decode_poll : decode 0x3000000000000000 = .ok .poll := by decide
theorem test_decode_srsp_ok : decode 0x4000000000000001 = .ok (.srsp true) := by decide
theorem test_decode_srsp_fail : decode 0x4000000000000000 = .ok (.srsp false) := by decide
/-- H14's word: PAR = 3, DBITS = 15. -/
theorem test_decode_lenc : decode 0x5000007B000004B0 = .ok (.lenc 1200 3 0 15) := by decide
/-- R89: LENC 115200, even, 2, 7. -/
theorem test_decode_lenc_stop2 : decode 0x5000003E0001C200 = .ok (.lenc 115200 2 1 7) := by decide
theorem test_decode_ctrl : decode 0x6000000000000001 = .ok (.ctrl true false) := by decide
/-- RTS is bit 1 alone (R71). -/
theorem test_decode_ctrl_rts : decode 0x6000000000000002 = .ok (.ctrl false true) := by decide
theorem test_decode_rst : decode 0x7000000000000000 = .ok .rst := by decide
/-- E2, E3, E4, E7, E9, E13, E15. -/
theorem test_decode_reserved :
    [0x10000000000000FF, 0x2000000000000141, 0x4000000000000002, 0x5000008000000000,
      0x6000000000000004].map decode = List.replicate 5 (.error .reservedBits) ∧
    [0x0000000000000000, 0x8000000000000000, 0xF000000000000000].map decode =
      List.replicate 3 (.error .reservedOpcode) := by decide
theorem test_decodeTableWord : decodeTableWord 64 0x2000000000000041 = some (.rxb 0x41) := by decide

/-! ### Every word of the opcode map runs as the first operation after reset; SRSP has no send to answer
(95_test_vectors.md F2) -/

theorem test_reset_runs :
    [0x1000000000000000, 0x2000000000000041, 0x3000000000000000, 0x50000040000004B0, 0x6000000000000001,
      0x7000000000000000].all
      (fun w => nextWith (step (State.reset.withFetchWord 64 w)) fun _ => true) = true := by decide
theorem test_reset_srsp :
    step (State.reset.withFetchWord 64 0x4000000000000001) = .fault .protocolViolation := by rfl

/-! ### TICK (section 3) -/

/-- T3: saturation. -/
theorem test_tick_saturates :
    nextWith (exec .tick { base with sinceRx := 0xFFFF }) (fun t => t.sinceRx == 0xFFFF) = true := by decide
/-- T5. -/
theorem test_tick_unreset : exec .tick unreset = .fault .protocolViolation := by rfl

/-! ### RXB (section 4) -/

/-- X3: full, the byte is dropped but the timing is updated. -/
theorem test_rxb_full :
    nextWith (exec (.rxb 0x99) { base with wrPtr := 17, rdPtr := 1, sinceRx := 4, timeout := 9 })
      (fun t => t.timeout == 8 && t.sinceRx == 0 && t.wrPtr == 17 && t.trace == [.rxDrop 0x99]) = true := by
  decide
/-- X9: the write pointer wraps. -/
theorem test_rxb_wraps :
    nextWith (exec (.rxb 0xFF) { base with wrPtr := 31, rdPtr := 16, sinceRx := 1 })
      (fun t => t.store == [(15, 0xFF)] && t.wrPtr == 0 && t.count == 16 && t.timeout == 2) = true := by
  decide

/-! ### POLL (section 5) -/

/-- PO2: count = N/2 alone does not flush. -/
theorem test_poll_half :
    nextWith (exec .poll { base with wrPtr := 8, timeout := 5 }) (fun t => t.flushRem == 0) = true := by
  decide
/-- PO4: since_rx = timeout flushes. -/
theorem test_poll_due :
    nextWith (exec .poll { base with wrPtr := 1, sinceRx := 5, timeout := 5 })
      (fun t => t.flushRem == 1 && t.trace == [.flush 1]) = true := by decide

/-! ### SRSP (section 6) -/

/-- SR6: the read pointer wraps. -/
theorem test_srsp_ok_wraps :
    nextWith (exec (.srsp true) wrapped)
      (fun t => t.rdPtr == 0 && t.flushRem == 1 && t.count == 1 && t.trace == [.txOk 0x10]) = true := by
  decide
/-- SR7: a failure removes nothing. -/
theorem test_srsp_fail :
    nextWith (exec (.srsp false) wrapped)
      (fun t => t.rdPtr == 31 && t.flushRem == 0 && t.trace == [.txFail 0x10]) = true := by decide

/-! ### LENC (section 7) -/

/-- H1: arms on the modern slot. -/
theorem test_lenc_arms :
    nextWith (exec (.lenc 1200 0 0 8) base) (fun t => t.hsState == .armed && t.pmem16 0x300 == 0xA55A &&
      t.trace == [.leFwd 1200 0 0 8, .pmw 0x300 0xA55A, .rt .startArm]) = true := by decide
/-- H5 on the legacy slot: cancels, restores, and the baud registers shift. -/
theorem test_lenc_cancels :
    nextWith (exec (.lenc 9600 0 0 8) armedLegacy) (fun t => t.hsState == .idle && t.curBaud == 9600 &&
      t.prevBaud == 1200 && t.pmem16 0x200 == 0xABCD) = true := by decide

/-! ### CTRL (section 7) -/

/-- H10: a fresh legacy arm saves the displaced value. -/
theorem test_ctrl_arms :
    nextWith (exec (.ctrl false false) { base with slotSel := .legacy, curBaud := 1200, curDtr := true })
      (fun t => t.backup == 0xABCD && t.trace ==
        [.pmr 0x200 0xABCD, .pmw 0x200 0xA55A, .rt .startArm]) = true := by decide
/-- H8: a re-arm with RTS asserted saves nothing. -/
theorem test_ctrl_rearms :
    nextWith (exec (.ctrl false true) armedLegacy)
      (fun t => t.backup == 0xABCD && t.trace == [.pmw 0x200 0xA55A, .rt .startArm]) = true := by decide

/-! ### RST (section 8.1) -/

/-- RS1 and RS4: the flush is lost, the signature selects MODERN. -/
theorem test_rst_modern :
    nextWith (exec .rst { wrapped with slotSel := .legacy })
      (fun t => t.slotSel == .modern && t.count == 0 && t.flushRem == 0 && t.store == [] &&
        t.trace == [.pgr 0x40 0x1234]) = true := by decide
/-- RS2. -/
theorem test_rst_legacy :
    nextWith (exec .rst { base with prog := [(0x40, 0xFF), (0x41, 0xFF)] })
      (fun t => t.slotSel == .legacy && t.trace == [.pgr 0x40 0xFFFF]) = true := by decide

/-! ### Ring buffer (section 2), environment, cycles (section 8.3), assembler (R89) -/

/-- rst in the second cycle of a cancel: its write and START_ABSORB are made (R87; log 17). -/
theorem test_cycle_reset_in_second :
    (cycleOutputs { PortsIn.quiet with rst := true } midCancel).pmWrite = some (0x300, 0x0000) ∧
      (cycleOutputs { PortsIn.quiet with rst := true } midCancel).rtCmd = 0b11 ∧
      (resetCycle midCancel).s.pmem16 0x300 = 0x0000 := by decide

/-- An address of PAW + 1 bits is no location: the input is refused (log 11). -/
theorem test_env_noSuchAddress : envStep (.appWrite8 0x10000 1) base = .refused .noSuchAddress := by rfl

/-- RB1. -/
theorem test_count_wraps : ({ base with wrPtr := 3, rdPtr := 29 } : State).count = 6 := by decide
/-- RB7. -/
theorem test_count_full : ({ base with wrPtr := 0, rdPtr := 16 } : State).isFull = true := by decide
/-- F4: a refused word. -/
theorem test_refused_word :
    step { base with inputs := [.word 0x9000000000000000] } = .refused .reservedEncoding := by rfl
/-- CY1: a full buffer takes a byte in the cycle that removes one. -/
theorem test_cycle_full :
    (cycleOutputs { PortsIn.quiet with txDone := true, txOk := true, rxValid := true, rxData := 0x55 }
      { s := { base with wrPtr := 16, rdPtr := 0, store := [(0, 1)], flushRem := 1 }, phase := .none,
        probeDue := false }).rxOk = some true := by decide
/-- CY5, cycle 1: CANCEL on rt_cmd. -/
theorem test_cycle_cancel :
    (cycleOutputs { PortsIn.quiet with evValid := true, evKind := true, evDtr := true }
      { s := armedLegacy, phase := .none, probeDue := false }).rtCmd = 0b10 := by decide
/-- `OPEN 9600 ; comment` with mixed case. -/
theorem test_assemble_line :
    assembleLine ['O', 'p', 'e', 'n', ' ', '9', '6', '0', '0', ' ', ';', 'x'] =
      some [0x5000004000002580, 0x6000000000000001] := by decide
/-- `LENC 0x1C200, even, 2, 7`: R89's third example, with a hexadecimal number. -/
theorem test_assemble_lenc :
    assembleLine ['L', 'E', 'N', 'C', ' ', '0', 'x', '1', 'C', '2', '0', '0', ',', ' ', 'e', 'v', 'e', 'n',
      ',', '2', ',', ' ', '7'] = some [0x5000003E0001C200] := by decide
/-- An operand out of range is an assembly error. -/
theorem test_assemble_error : assembleLine ['R', 'X', 'B', ' ', '2', '5', '6'] = none := by decide

/-! ### States that meet the invariant -/

theorem base_inv : base.Inv :=
  ⟨by decide, by decide, by decide, fun _ => ⟨by decide, by decide, by decide, by decide, by decide,
    by decide, by decide, by decide, by decide, by unfold State.occupiedWritten; decide⟩⟩

theorem wrapped_inv : wrapped.Inv :=
  ⟨by decide, by decide, by decide, fun _ => ⟨by decide, by decide, by decide, by decide, by decide,
    by decide, by decide, by decide, by decide, by unfold State.occupiedWritten; decide⟩⟩

theorem queued_inv : queued.Inv :=
  ⟨by decide, by decide, by decide, fun _ => ⟨by decide, by decide, by decide, by decide, by decide,
    by decide, by decide, by decide, by decide, by unfold State.occupiedWritten; decide⟩⟩

theorem full2_inv : full2.Inv :=
  ⟨by decide, by decide, by decide, fun _ => ⟨by decide, by decide, by decide, by decide, by decide,
    by decide, by decide, by decide, by decide, by unfold State.occupiedWritten; decide⟩⟩

theorem full2_noLoss : full2.NoLoss := by unfold State.NoLoss; decide

/-- `full2` with an answer to its first send attempt as its next input. -/
def full2Answered : State := { full2 with inputs := [.word 0x4000000000000001] }

theorem full2Answered_inv : full2Answered.Inv :=
  ⟨by decide, by decide, by decide, fun _ => ⟨by decide, by decide, by decide, by decide, by decide,
    by decide, by decide, by decide, by decide, by unfold State.occupiedWritten; decide⟩⟩

theorem full2Answered_noLoss : full2Answered.NoLoss := by unfold State.NoLoss; decide

/-! ### Witnesses: every statement's hypotheses can be met, each clause at a boundary -/

theorem witness_DecodedWordIsItsEncoding : decode 0x20000000000000FF = .ok (.rxb 0xFF) := by decide

theorem witness_DecodeFollowsOpcodeMap :
    (⟨.lenc, 0x5000000000000000, 0xFFFFFF8000000000⟩ : OpcodeRow) ∈ opcodeTable ∧
      (0x5000007FFFFFFFFF : OpWord) &&& 0xFFFFFF8000000000 = 0x5000000000000000 := by decide

theorem witness_OpcodeRowsNeverOverlap :
    ∀ r ∈ opcodeTable, r.matchBits &&& r.maskBits = r.matchBits := by decide

theorem witness_StepRunsDecodedOperation :
    full2Answered.inputs = .word 0x4000000000000001 :: [] ∧
      decode 0x4000000000000001 = .ok (.srsp true) := by decide

theorem witness_StepWithNoInputChangesNothing : base.inputs = [] := by rfl

theorem witness_EnabledOperationsComplete :
    (base.Inv ∧ enabled .tick base = true ∧ enabled (.rxb 0) base = true ∧ enabled .poll base = true ∧
      enabled (.lenc 0 0 0 0) base = true ∧ enabled (.ctrl false false) base = true ∧
      enabled .rst base = true) ∧
    (full2.Inv ∧ enabled (.srsp true) full2 = true) :=
  ⟨⟨base_inv, by decide, by decide, by decide, by decide, by decide, by decide⟩, full2_inv, by decide⟩

theorem witness_NoStepMeetsAnEmptyBuffer : full2Answered.Inv := full2Answered_inv

theorem witness_TickSaturatesSinceRx : base.resetSeen = true ∧ unreset.resetSeen = false := by decide

/-- Room at count N - 1, none at count N, both sides of the empty buffer. -/
theorem witness_RxbSetsTimeoutAndInsertsOrDrops :
    base.resetSeen = true ∧ base.count = 0 ∧ full2.resetSeen = true ∧ full2.count = 2 ^ full2.cfg.k ∧
      unreset.resetSeen = false := by decide

/-- Due at equality, half at N/2 + 1, neither at N/2, and both disabled cases. -/
theorem witness_PollStartsFlushWhenDueOrHalf :
    (queued.resetSeen = true ∧ queued.flushRem = 0 ∧ 0 < queued.count ∧ queued.timeout = queued.sinceRx) ∧
    (({ base with wrPtr := 9, timeout := 1 } : State).count = 2 ^ 4 / 2 + 1) ∧
    (({ base with wrPtr := 8, timeout := 1 } : State).count = 2 ^ 4 / 2) ∧
    unreset.resetSeen = false ∧ 0 < wrapped.flushRem := by decide

theorem witness_SrspRemovesOrEndsFlush :
    (wrapped.resetSeen = true ∧ 0 < wrapped.flushRem ∧ 0 < wrapped.count ∧
      wrapped.store.byte? (wrapped.rdPtr % 2 ^ wrapped.cfg.k) = some 0x10) ∧
    unreset.resetSeen = false ∧ base.flushRem = 0 := by decide

theorem witness_SrspOnAnEmptyBufferIsPeekEmpty :
    ({ base with flushRem := 1 } : State).count = 0 ∧ ({ base with flushRem := 1 } : State).resetSeen = true ∧
      0 < ({ base with flushRem := 1 } : State).flushRem := by decide

theorem witness_CountIsThePointerDifference : full2.Inv ∧ full2.resetSeen = true := ⟨full2_inv, by decide⟩

theorem witness_PeekThenRemoveGivesTheSameByte :
    wrapped.Inv ∧ wrapped.resetSeen = true ∧ 0 < wrapped.count := ⟨wrapped_inv, by decide, by decide⟩

/-- An empty buffer; and for the last clause one state with room and one without. -/
theorem witness_PeekAnswersTheOldestByte :
    base.count = 0 ∧ wrapped.store.byte? (wrapped.rdPtr % 2 ^ wrapped.cfg.k) = some 0x10 ∧
      (wrapped.Inv ∧ wrapped.resetSeen = true ∧ 0 < wrapped.count) ∧
      (full2.Inv ∧ full2.resetSeen = true ∧ 0 < full2.count) :=
  ⟨by decide, by decide, ⟨wrapped_inv, by decide, by decide⟩, full2_inv, by decide, by decide⟩

/-- An empty buffer, and one whose read pointer is at its last value. -/
theorem witness_RemoveTakesTheOldestByte :
    base.count = 0 ∧ 0 < wrapped.count ∧ wrapped.rdPtr = 2 ^ (wrapped.cfg.k + 1) - 1 ∧
      wrapped.store.byte? (wrapped.rdPtr % 2 ^ wrapped.cfg.k) = some 0x10 := by decide

theorem witness_RxbAppendsToTheQueue :
    (base.Inv ∧ base.resetSeen = true ∧ base.count ≠ 2 ^ base.cfg.k) ∧
      (full2.Inv ∧ full2.resetSeen = true ∧ full2.count = 2 ^ full2.cfg.k) :=
  ⟨⟨base_inv, by decide, by decide⟩, full2_inv, by decide, by decide⟩

theorem witness_SrspOkTakesTheOldestByte :
    wrapped.Inv ∧ wrapped.resetSeen = true ∧ 0 < wrapped.flushRem := ⟨wrapped_inv, by decide, by decide⟩

theorem witness_FlushSendsItsBudgetInOrder : wrapped.Inv ∧ wrapped.resetSeen = true ∧ wrapped.flushRem = 2 :=
  ⟨wrapped_inv, by decide, by decide⟩

theorem witness_StepKeepsNoByteLost :
    full2Answered.Inv ∧ full2Answered.NoLoss ∧ ∃ t, step full2Answered = .next t :=
  ⟨full2Answered_inv, full2Answered_noLoss, _, rfl⟩

theorem witness_SentBytesAreTheFirstReceived :
    full2Answered.Inv ∧ full2Answered.NoLoss ∧
      ∃ t, Sys2Proof.core.run 1 full2Answered = .next t ∧ t.resetSeen = true ∧
        sentSinceReset t.trace = [0x61] :=
  ⟨full2Answered_inv, full2Answered_noLoss, _, rfl, rfl, by decide⟩

theorem witness_SteadyStreamSetsTimeoutToTwiceTheGap : full2.Inv ∧ full2.resetSeen = true :=
  ⟨full2_inv, by decide⟩

theorem witness_SilenceFlushesALoneByte :
    queued.Inv ∧ queued.resetSeen = true ∧ queued.flushRem = 0 ∧ 0 < queued.count ∧
      2 ^ queued.cfg.tw - 1 ≤ 65535 := ⟨queued_inv, by decide, by decide, by decide, by decide⟩

theorem witness_FailedSendIsRetriedByTheNextPoll :
    wrapped.Inv ∧ wrapped.resetSeen = true ∧ 0 < wrapped.flushRem ∧ wrapped.flushCond = true :=
  ⟨wrapped_inv, by decide, by decide, by decide⟩

/-- The arm path (baud 1200, DTR deasserted), the cancel path at baud 1201, and both disabled cases. -/
theorem witness_LencForwardsThenArmsOrCancels :
    (base.resetSeen = true ∧ base.hsState ≠ .cancelling ∧ base.cfg.leEventArms = true ∧
      base.curDtr = false) ∧ ((1201 : Baud) ≠ 1200) ∧ unreset.resetSeen = false ∧
      ({ base with hsState := .cancelling } : State).hsState = .cancelling := by decide

theorem witness_CtrlHoldsDtrThenArmsOrCancels :
    (armedLegacy.resetSeen = true ∧ armedLegacy.hsState ≠ .cancelling ∧ armedLegacy.curBaud = 1200) ∧
      base.curBaud ≠ 1200 ∧ unreset.resetSeen = false ∧
      ({ base with hsState := .cancelling } : State).hsState = .cancelling := by decide

/-- On the legacy slot with DTR deasserted, where the LENC itself arms; and on the modern slot. -/
theorem witness_TouchAt1200ArmsAndDtrCancels :
    (({ base with slotSel := .legacy } : State).resetSeen = true ∧
      ({ base with slotSel := .legacy } : State).hsState = .idle ∧
      ({ base with slotSel := .legacy } : State).cfg.leEventArms = true ∧
      ({ base with slotSel := .legacy } : State).curDtr = false) ∧
    base.resetSeen = true ∧ base.hsState = .idle ∧ base.slotSel = .modern := by decide

theorem witness_HandshakeCommutesWithFifo :
    (∃ t, runOps [.ctrl false false, .rxb 0x41] base = .next t) ∧
      ∃ u, runOps [.rxb 0x41, .ctrl false false] base = .next u := ⟨⟨_, rfl⟩, _, rfl⟩

theorem witness_ResetStateIsTheFirstRst :
    cfg4.valid = true ∧ ({ wrapped with pmem := [], prog := [] } : State).pmem = [] ∧
      ({ wrapped with pmem := [], prog := [] } : State).prog = [] ∧
      ({ wrapped with pmem := [], prog := [] } : State).inputs = [] := by decide

/-- Each constraint of R5 just broken, and a configuration that keeps them all at their bounds. -/
theorem witness_BadParametersAreRefused :
    (({ cfg4 with k := 0 } : Config).k < 1) ∧ (({ cfg4 with tw := 1 } : Config).tw < 2) ∧
    (2 ^ cfg1.tw - 1 < ({ cfg1 with timeoutInit := 4 } : Config).timeoutInit) ∧
    (({ cfg4 with magicKey := 0 } : Config).magicKey = 0x0000) ∧
    (({ cfg4 with modernSlotAddr := 0x201 } : Config).modernSlotAddr ≤ cfg4.legacySlotAddr + 1) ∧
    (1 ≤ cfg1.k ∧ 2 ≤ cfg1.tw ∧ cfg1.timeoutInit ≤ 2 ^ cfg1.tw - 1 ∧ cfg1.magicKey ≠ 0x0000 ∧
      cfg1.legacySlotAddr + 1 < cfg1.modernSlotAddr ∧ cfg1.modernSlotAddr < 2 ^ cfg1.paw ∧
      cfg1.sigAddr < 2 ^ cfg1.pgaw) := by decide

theorem witness_ResetStateMeetsTheInvariant : cfg1.valid = true := by decide

theorem witness_StepKeepsTheInvariant : full2Answered.Inv ∧ ∃ t, step full2Answered = .next t :=
  ⟨full2Answered_inv, _, rfl⟩

/-- One operation that writes each kind of field. -/
theorem witness_OnlyItsWritersChangeAField :
    (∃ t, exec (.rxb 0x41) base = .next t ∧ t.store ≠ base.store ∧ t.wrPtr ≠ base.wrPtr) ∧
    (∃ t, exec (.srsp true) wrapped = .next t ∧ t.rdPtr ≠ wrapped.rdPtr) ∧
    (∃ t, exec (.lenc 1200 0 0 8) { base with slotSel := .legacy } = .next t ∧ t.backup ≠ base.backup ∧
      t.pmem ≠ base.pmem ∧ t.hsState ≠ base.hsState) :=
  ⟨⟨_, rfl, by decide, by decide⟩, ⟨_, rfl, by decide⟩, _, rfl, by decide, by decide, by decide⟩

theorem witness_OnlyTheActiveSlotIsWritten :
    ∃ t, exec (.ctrl true false) armedLegacy = .next t ∧ t.pmem ≠ armedLegacy.pmem :=
  ⟨_, rfl, by decide⟩

theorem witness_TraceOnlyGrowsAndParametersStay :
    ∃ t, step full2Answered = .next t ∧ t.trace ≠ full2Answered.trace := ⟨_, rfl, by decide⟩

theorem witness_StatusOutputsFollowTheState : 0 < wrapped.flushRem := by decide

theorem witness_MemWriteIsLocalAndIdempotent : base.pmem.wf := by decide

/-- Both byte orders, each byte at the last address of the space. -/
theorem witness_ByteWriteIsCombinedByByteOrder :
    0xFFFF < 2 ^ base.cfg.paw ∧ 0xFFFE + 1 < 2 ^ base.cfg.paw ∧ base.cfg.byteOrder = .little ∧
      ({ base with cfg := { cfg4 with byteOrder := .big } } : State).cfg.byteOrder = .big := by decide

theorem witness_ApplicationWriteIsSeenByTheNextRead :
    ({ base with inputs := [.env (.appWrite16 0xFFFF 1)] } : State).inputs = .env (.appWrite16 0xFFFF 1) :: [] ∧
      0xFFFF < 2 ^ base.cfg.paw := by decide

theorem witness_SignatureChangeIsSeenAtTheNextRst : base.cfg.sigAddr < 2 ^ base.cfg.pgaw := by decide

/-- Each command last, with another before it and an event that is no command after it. -/
theorem witness_CountdownEndReachesTheBlockAsRst (cmd : TimerCmd) :
    ({ base with trace := [.rt .startArm, .rt cmd, .rxOk 0] } : State).trace =
      [.rt .startArm] ++ .rt cmd :: [.rxOk 0] ∧ ∀ c, Event.rt c ∉ [Event.rxOk 0] := by
  cases cmd <;> exact ⟨rfl, fun c => by simp⟩

theorem midCancel_inv : midCancel.Inv :=
  ⟨⟨by decide, by decide, by decide, fun _ => ⟨by decide, by decide, by decide, by decide, by decide,
    by decide, by decide, by decide, by decide, by unfold State.occupiedWritten; decide⟩⟩, by decide,
    by simp [midCancel]⟩

/-- With nothing left from the cycle before, between the two cycles of a host event, and right after a reset
cycle. -/
theorem witness_CycleIsItsOperationsInOrder :
    CycleState.Inv { s := full2, phase := .none, probeDue := false } ∧ midCancel.Inv ∧
      CycleState.Inv (resetCycle { s := base, phase := .none, probeDue := false }) ∧
      ({ PortsIn.quiet with tick := true, txDone := true, rxValid := true } : PortsIn).rst = false ∧
      ({ PortsIn.quiet with tick := true, txDone := true, rxValid := true } : PortsIn).evValid = false :=
  ⟨⟨full2_inv, by decide, by simp⟩, midCancel_inv,
    ⟨⟨by decide, by decide, by decide, fun _ => ⟨by decide, by decide, by decide, by decide, by decide,
      by decide, by decide, by decide, by decide, by unfold State.occupiedWritten; decide⟩⟩, by decide,
      fun _ => rfl⟩, by decide, by decide⟩

theorem witness_FullBufferAcceptsAfterSameCycleRemoval :
    full2.Inv ∧ full2.resetSeen = true ∧ full2.count = 2 ^ full2.cfg.k ∧ 0 < full2.flushRem ∧
      ({ PortsIn.quiet with txDone := true, txOk := true, rxValid := true } : PortsIn).rst = false :=
  ⟨full2_inv, by decide, by decide, by decide, by decide⟩

theorem witness_HostEventTakesTwoCycles :
    base.resetSeen = true ∧ base.hsState ≠ .cancelling := by decide

/-- A full buffer in a flush, an answer, a byte and a host event in one cycle, the same in the next. -/
theorem witness_FifoOperationsDuringAHostEvent :
    full2.Inv ∧ full2.resetSeen = true ∧
      ({ PortsIn.quiet with txDone := true, txOk := true, rxValid := true, evValid := true } : PortsIn).rst =
        false ∧
      ({ PortsIn.quiet with txDone := true, txOk := true, rxValid := true, evValid := true } : PortsIn).evValid =
        true ∧ ({ PortsIn.quiet with rst := true } : PortsIn).rst = true :=
  ⟨full2_inv, by decide, by decide, by decide, by decide⟩

theorem witness_FifoOperationsInTheProbeCycle :
    ({ PortsIn.quiet with rst := true } : PortsIn).rst = true ∧
      ({ PortsIn.quiet with tick := true, rxValid := true, evValid := true } : PortsIn).rst = false := by decide

theorem witness_ResetCyclesAmountToRst : ({ PortsIn.quiet with rst := true } : PortsIn).rst = true := by
  decide

theorem witness_OperandOutOfRangeIsAnError :
    2 ^ 8 ≤ 256 ∧ 2 ^ 32 ≤ 4294967296 ∧ 2 ^ 4 ≤ 16 ∧ 2 ≤ 2 := by decide

theorem witness_PseudoOperationsExpand : 255 < 2 ^ 8 ∧ 4294967295 < 2 ^ 32 := by decide

end Sys2Proof.Tests
end

section
/-!
The element count as an integer difference of the pointers (10_state.md R23).
-/

namespace Sys2Proof.Machine

/-- The truncated difference of `wrapSubW` is the integer difference modulo 2^w, whether or not the
pointers fit their width (R8, R9). -/
theorem wrapSubW_cast (w a b : Nat) :
    (wrapSubW w a b : Int) = ((a : Int) - (b : Int)) % (2 : Int) ^ w := by
  have hle : b % 2 ^ w ≤ a + 2 ^ w :=
    (Nat.mod_lt b (Nat.two_pow_pos w)).le.trans (Nat.le_add_left _ _)
  calc (wrapSubW w a b : Int)
      = ((a : Int) + 2 ^ w - (b : Int) % 2 ^ w) % 2 ^ w := by
        simp [wrapSubW, wrapW, Nat.cast_sub hle]
    _ = ((a : Int) + 2 ^ w - b) % 2 ^ w := Int.sub_emod_emod _ _ _
    _ = ((a : Int) - b + 2 ^ w) % 2 ^ w := by rw [sub_add_eq_add_sub]
    _ = ((a : Int) - b) % 2 ^ w := Int.add_emod_right _ _

/-- Settles O17: the difference is `wrapSubW_cast` at the width of the pointers, and the bound is a field
of the register invariant. -/
theorem countIsThePointerDifference : Obligations.CountIsThePointerDifference := by
  intro s
  exact ⟨wrapSubW_cast s.cfg.pw s.wrPtr s.rdPtr, fun hinv hreset => (hinv.regs hreset).count_le⟩

end Sys2Proof.Machine
end

section
/-!
The ring-buffer primitives insert, peek and remove (40_ring_buffer.md R102, R104, R105).
-/

namespace Sys2Proof.Machine

theorem State.isFull_eq_false_iff (s : State) : s.isFull = false ↔ s.count ≠ s.cfg.capacity :=
  decide_eq_false_iff_not

/-! ### What an insert leaves of a non-empty buffer -/

/-- With a byte in the buffer and room for another, the two pointers name different entries
(20_memory.md R62). -/
theorem storeIndex_wrPtr_ne_rdPtr {s : State} (h : s.RegInv) (hc : 0 < s.count)
    (hroom : s.count < s.cfg.capacity) : storeIndex s.cfg s.wrPtr ≠ storeIndex s.cfg s.rdPtr := by
  rw [← storeIndex_rdPtr_add_count h]
  intro e
  exact hc.ne' (storeIndex_inj (j := 0) hroom (capacity_pos _) e)

/-- An insert does not overwrite the byte at the head (R104, R111). -/
theorem headByte?_fifoInsert {s : State} (h : s.RegInv) (hc : 0 < s.count) (d : Byte) :
    (fifoInsert d s).2.headByte? = s.headByte? := by
  cases hf : s.isFull with
  | true => rw [fifoInsert_of_full hf]
  | false =>
    have hroom : s.count < s.cfg.capacity := lt_of_le_of_ne h.count_le (s.isFull_eq_false_iff.1 hf)
    rw [fifoInsert_of_not_full hf]
    exact Memory.byte?_set_other _ _ (storeIndex_wrPtr_ne_rdPtr h hc hroom)

/-- An insert leaves a non-empty buffer non-empty. -/
theorem count_fifoInsert_pos {s : State} (h : s.RegInv) (hc : 0 < s.count) (d : Byte) :
    0 < (fifoInsert d s).2.count := by
  cases hf : s.isFull with
  | true => rwa [fifoInsert_of_full hf]
  | false =>
    obtain ⟨-, hcount, -⟩ := queue_append h (s.isFull_eq_false_iff.1 hf) d
    rw [fifoInsert_of_not_full hf, hcount]
    exact Nat.succ_pos _

/-- An insert between two peeks does not change the answer (R104). -/
theorem fifoPeek_fifoInsert {s : State} (h : s.RegInv) (hc : 0 < s.count) (d : Byte) :
    fifoPeek (fifoInsert d s).2 = fifoPeek s := by
  obtain ⟨b, hb⟩ := exists_headByte h hc
  have hbefore : fifoPeek s = .ok b := (fifoPeek_eq_ok_iff _ _).2 ⟨hc, hb⟩
  have hafter : fifoPeek (fifoInsert d s).2 = .ok b :=
    (fifoPeek_eq_ok_iff _ _).2 ⟨count_fifoInsert_pos h hc d, (headByte?_fifoInsert h hc d).trans hb⟩
  rw [hafter, hbefore]

/-! ### The faults of an empty buffer -/

theorem fifoPeek_of_empty {s : State} (h : s.count = 0) : fifoPeek s = .error .peekEmpty :=
  if_pos (s.isEmpty_iff.2 h)

theorem fifoRemove_of_empty {s : State} (h : s.count = 0) : fifoRemove s = .error .removeEmpty :=
  if_pos (s.isEmpty_iff.2 h)

/-! ### The statements -/

/-- Settles O20: an insert between two peeks keeps the count positive and does not write the entry at the
head (`fifoPeek_fifoInsert`). -/
theorem peekAnswersTheOldestByte : Obligations.PeekAnswersTheOldestByte := by
  intro s
  refine ⟨fifoPeek_of_empty, fun b hc hb => ?_, fun d hinv hreset hc => ?_⟩
  · exact (fifoPeek_eq_ok_iff s b).2 ⟨hc, hb⟩
  · exact fifoPeek_fifoInsert (hinv.regs hreset) hc d

/-- Settles O18, by the two cases of insert: `fifoInsert_of_full` and `fifoInsert_of_not_full`. -/
theorem insertWritesOneEntryOrDrops : Obligations.InsertWritesOneEntryOrDrops := by
  intro b s
  split
  · next hfull => exact fifoInsert_of_full (s.isFull_iff.2 hfull) b
  · next hroom =>
    exact ⟨_, fifoInsert_of_not_full (s.isFull_eq_false_iff.2 hroom) b, Memory.byte?_set_same _ _ _,
      fun a ha => Memory.byte?_set_other _ _ ha.symm, rfl, rfl⟩

/-- Settles O21: remove answers what peek does, here the byte at the read pointer
(`fifoRemove_eq_ok_iff`). -/
theorem removeTakesTheOldestByte : Obligations.RemoveTakesTheOldestByte := by
  intro s
  refine ⟨fifoRemove_of_empty, fun b hc hb => ?_⟩
  have hpeek : fifoPeek s = .ok b := (fifoPeek_eq_ok_iff s b).2 ⟨hc, hb⟩
  exact (fifoRemove_eq_ok_iff s b _).2 ⟨hpeek, rfl⟩

end Sys2Proof.Machine
end

section
/-!
The encoding (30_encoding.md R70, R71, R80, R81): decoder, encoder and opcode map against each other. The
idea throughout: opcode bits, reserved bits and field bits cut a word into three parts.
-/

namespace Sys2Proof

/-! ### The opcode map -/

theorem Opcode.ofBits_eq_some_iff (b : BitVec 4) (o : Opcode) : Opcode.ofBits b = some o ↔ b = o.bits := by
  revert b
  cases o <;> decide

theorem Opcode.ofBits_eq_none_iff (b : BitVec 4) : Opcode.ofBits b = none ↔ b.toNat = 0 ∨ 8 ≤ b.toNat := by
  revert b
  decide

theorem opcodeOf_instrOfFields (o : Opcode) (w : OpWord) : opcodeOf (instrOfFields o w) = o := by
  cases o <;> rfl

/-- What the decoder accepts: an opcode of the map, its reserved bits 0, the fields as they are (R71, R81). -/
theorem decode_eq_ok_iff (w : OpWord) (i : Instr) :
    decode w = .ok i ↔
      ∃ o : Opcode, OpWord.opcodeBits w = o.bits ∧ w &&& o.format.reserved = 0 ∧ instrOfFields o w = i := by
  simp only [← Opcode.ofBits_eq_some_iff, decode]
  cases Opcode.ofBits (OpWord.opcodeBits w) with
  | none => simp
  | some o => by_cases h : w &&& o.format.reserved = 0#64 <;> simp [h]

/-- What the decoder rejects (R81). -/
theorem decode_eq_error_iff (w : OpWord) :
    (∃ e, decode w = .error e) ↔
      Opcode.ofBits (OpWord.opcodeBits w) = none ∨
        ∃ o, Opcode.ofBits (OpWord.opcodeBits w) = some o ∧ w &&& o.format.reserved ≠ 0 := by
  unfold decode
  cases Opcode.ofBits (OpWord.opcodeBits w) with
  | none => simp
  | some o => by_cases h : w &&& o.format.reserved = 0#64 <;> simp [h]

/-! ### The decoder undoes the encoder -/

/-- Every operation's word is well formed: the per-operation facts of `Laws.Encoding` together. -/
theorem encoding_statement (i : Instr) : Laws.Encoding.Statement i := by
  cases i with
  | tick => exact Laws.Encoding.tick
  | rxb d => exact Laws.Encoding.rxb d
  | poll => exact Laws.Encoding.poll
  | srsp ok => exact Laws.Encoding.srsp ok
  | lenc baud par stop2 dbits => exact Laws.Encoding.lenc baud par stop2 dbits
  | ctrl dtr rts => exact Laws.Encoding.ctrl dtr rts
  | rst => exact Laws.Encoding.rst

/-- The bits of a LENC word below its opcode: the four fields side by side (R71). -/
theorem getLsbD_encode_lenc (baud : Baud) (par : BitVec 2) (stop2 : BitVec 1) (dbits : BitVec 4) {n : Nat}
    (hn : n < 39) :
    (encode (.lenc baud par stop2 dbits)).getLsbD n =
      if n < 32 then baud.getLsbD n else if n < 34 then par.getLsbD (n - 32)
      else if n < 35 then stop2.getLsbD (n - 34) else dbits.getLsbD (n - 35) := by
  have hop : (opcodeWord .lenc).getLsbD n = false := by
    simp [opcodeWord, show n < 60 by omega]
  have hw : n < 64 := by omega
  rw [encode, BitVec.getLsbD_or, opcodeOf, hop, Bool.false_or]
  simp only [fieldBits, BitVec.getLsbD_or, BitVec.getLsbD_shiftLeft, BitVec.getLsbD_setWidth, hw]
  split_ifs with h₁ h₂ h₃
  · simp [h₁, show n < 34 by omega, show n < 35 by omega]
  · simp [h₁, h₂, show n < 35 by omega, show n - 32 < 64 by omega, BitVec.getLsbD_of_ge baud n (by omega)]
  · simp [h₁, h₂, h₃, show n - 34 < 64 by omega, BitVec.getLsbD_of_ge baud n (by omega),
      BitVec.getLsbD_of_ge par (n - 32) (by omega)]
  · simp [h₁, h₂, h₃, show n - 35 < 64 by omega, BitVec.getLsbD_of_ge baud n (by omega),
      BitVec.getLsbD_of_ge par (n - 32) (by omega), BitVec.getLsbD_of_ge stop2 (n - 34) (by omega)]

/-- The decoder finds each field of an encoded word where the encoder put it (R71, R76). -/
theorem instrOfFields_encode (i : Instr) : instrOfFields (opcodeOf i) (encode i) = i := by
  cases i with
  | tick => rfl
  | rxb d =>
    show Instr.rxb _ = _
    congr 1
    have hop : (opcodeWord .rxb).extractLsb' 0 8 = 0 := by decide
    rw [encode, BitVec.extractLsb'_or, opcodeOf, hop, fieldBits,
      BitVec.extractLsb'_setWidth_of_le (by decide)]
    simp
  | poll => rfl
  | srsp ok => cases ok <;> rfl
  | lenc baud par stop2 dbits =>
    show Instr.lenc _ _ _ _ = _
    congr 1 <;> refine BitVec.eq_of_getLsbD_eq fun n hn => ?_
    · simp [hn, getLsbD_encode_lenc _ _ _ _ (show n < 39 by omega)]
    · simp [hn, getLsbD_encode_lenc _ _ _ _ (show 32 + n < 39 by omega), show 32 + n < 34 by omega]
    · simp [hn, getLsbD_encode_lenc _ _ _ _ (show 34 + n < 39 by omega), show 34 + n < 35 by omega,
        show ¬ 34 + n < 32 by omega]
    · simp [hn, getLsbD_encode_lenc _ _ _ _ (show 35 + n < 39 by omega), show ¬ 35 + n < 32 by omega,
        show ¬ 35 + n < 34 by omega]
  | ctrl dtr rts => cases dtr <;> cases rts <;> rfl
  | rst => rfl

theorem decode_encode (i : Instr) : decode (encode i) = .ok i := by
  obtain ⟨hopcode, hreserved⟩ := encoding_statement i
  exact (decode_eq_ok_iff _ _).2 ⟨_, hopcode, hreserved, instrOfFields_encode i⟩

/-- Settles O1, by `decode_encode`: the opcode and the reserved bits are `Laws.Encoding`'s, the fields are
`instrOfFields_encode`. -/
theorem decodeOfEncodeIsTheOperation : Obligations.DecodeOfEncodeIsTheOperation := decode_encode

/-! ### The three parts of a word -/

/-- The mask of OPC (R70). -/
def opcodeMask : OpWord := 0xF000000000000000

/-- How many low bits the fields of a format take (R71). -/
def Format.fieldWidth : Format → Nat
  | .z => 0
  | .b => 8
  | .s => 1
  | .l => 39
  | .c => 2

/-- The mask of a format's fields. -/
def Format.fieldMask (f : Format) : OpWord := BitVec.ofNat 64 (2 ^ f.fieldWidth - 1)

theorem Format.getLsbD_fieldMask (f : Format) {n : Nat} (hn : n < 64) :
    f.fieldMask.getLsbD n = decide (n < f.fieldWidth) := by
  rw [Format.fieldMask, BitVec.getLsbD_ofNat, Nat.testBit_two_pow_sub_one, decide_eq_true hn, Bool.true_and]

/-- Opcode, reserved bits and fields are all of a word. -/
theorem masks_cover (f : Format) : opcodeMask ||| f.reserved ||| f.fieldMask = BitVec.allOnes 64 := by
  cases f <;> decide

/-- The opcode bits and the reserved bits have no bit in common. -/
theorem opcodeMask_and_reserved (f : Format) : opcodeMask &&& f.reserved = 0 := by
  cases f <;> decide

theorem opcodeWord_and_opcodeMask (o : Opcode) : opcodeWord o &&& opcodeMask = opcodeWord o := by
  cases o <;> decide

/-- OPC of a word as the word's bits 63 to 60 (R70). -/
theorem and_opcodeMask (w : OpWord) : w &&& opcodeMask = (OpWord.opcodeBits w).setWidth 64 <<< 60 := by
  refine BitVec.eq_of_getLsbD_eq fun n hn => ?_
  have hmask : opcodeMask.getLsbD n = decide (60 ≤ n) := by
    revert n; decide
  rw [BitVec.getLsbD_and, hmask, BitVec.getLsbD_shiftLeft, BitVec.getLsbD_setWidth, OpWord.opcodeBits,
    BitVec.getLsbD_extractLsb']
  by_cases h : 60 ≤ n
  · simp only [h, hn, show ¬ n < 60 by omega, show n - 60 < 64 by omega, show n - 60 < 4 by omega,
      Nat.add_sub_cancel' h, decide_true, decide_false, Bool.and_true, Bool.true_and, Bool.not_false]
  · simp [h, show n < 60 by omega]

theorem and_opcodeMask_eq_opcodeWord_iff (w : OpWord) (o : Opcode) :
    w &&& opcodeMask = opcodeWord o ↔ OpWord.opcodeBits w = o.bits := by
  rw [and_opcodeMask, opcodeWord]
  refine ⟨fun h => BitVec.eq_of_getLsbD_eq fun n hn => ?_, fun h => by rw [h]⟩
  have hbit := congrArg (fun v : OpWord => v.getLsbD (60 + n)) h
  simpa [hn, show 60 + n < 64 by omega, show n < 64 by omega] using hbit

/-- A field taken out of a word and put back in its place is the word's bits there. -/
theorem getLsbD_field (w : OpWord) (k len : Nat) {n : Nat} (hn : n < 64) :
    ((w.extractLsb' k len).setWidth 64 <<< k).getLsbD n = (decide (k ≤ n ∧ n < k + len) && w.getLsbD n) := by
  rw [BitVec.getLsbD_shiftLeft, BitVec.getLsbD_setWidth, BitVec.getLsbD_extractLsb']
  by_cases hk : k ≤ n
  · have hlen : n - k < len ↔ n < k + len := by omega
    simp [hn, hk, hlen, show n - k < 64 by omega, show ¬ n < k by omega]
  · simp [hk, show n < k by omega]

/-- A one-bit field as a bit string. -/
theorem ofBool_getLsbD (w : OpWord) (k : Nat) : BitVec.ofBool (w.getLsbD k) = w.extractLsb' k 1 := by
  refine BitVec.eq_of_getLsbD_eq fun n hn => ?_
  obtain rfl : n = 0 := by omega
  simp

/-- The field part of a word is the fields the decoder reads, put back by the encoder (R71). -/
theorem fieldBits_instrOfFields (o : Opcode) (w : OpWord) :
    fieldBits (instrOfFields o w) = w &&& o.format.fieldMask := by
  refine BitVec.eq_of_getLsbD_eq fun n hn => ?_
  have low (len : Nat) :
      ((w.extractLsb' 0 len).setWidth 64).getLsbD n = (decide (n < len) && w.getLsbD n) := by
    simpa using getLsbD_field w 0 len hn
  rw [BitVec.getLsbD_and, Format.getLsbD_fieldMask _ hn, Bool.and_comm]
  cases o with
  | tick => simp [instrOfFields, fieldBits, Opcode.format, Format.fieldWidth]
  | rxb => exact low 8
  | poll => simp [instrOfFields, fieldBits, Opcode.format, Format.fieldWidth]
  | srsp => exact (congrArg (fun v => (v.setWidth 64).getLsbD n) (ofBool_getLsbD w 0)).trans (low 1)
  | lenc =>
    simp only [instrOfFields, fieldBits, BitVec.getLsbD_or, getLsbD_field w _ _ hn, low,
      ← Bool.and_or_distrib_right, ← Bool.decide_or, Opcode.format, Format.fieldWidth]
    exact congrArg (· && w.getLsbD n) (decide_eq_decide.2 (by omega))
  | ctrl =>
    simp only [instrOfFields, fieldBits, BitVec.getLsbD_or, ofBool_getLsbD, getLsbD_field w _ _ hn, low,
      ← Bool.and_or_distrib_right, ← Bool.decide_or, Opcode.format, Format.fieldWidth]
    exact congrArg (· && w.getLsbD n) (decide_eq_decide.2 (by omega))
  | rst => simp [instrOfFields, fieldBits, Opcode.format, Format.fieldWidth]

/-- A word the decoder reads is its opcode and its fields and nothing else (R70, R71). -/
theorem encode_of_decode {w : OpWord} {i : Instr} (h : decode w = .ok i) : encode i = w := by
  obtain ⟨o, hopcode, hreserved, rfl⟩ := (decode_eq_ok_iff w i).1 h
  calc encode (instrOfFields o w)
      = w &&& opcodeMask ||| w &&& o.format.fieldMask := by
        rw [encode, opcodeOf_instrOfFields, fieldBits_instrOfFields,
          (and_opcodeMask_eq_opcodeWord_iff w o).2 hopcode]
    _ = w &&& (opcodeMask ||| o.format.reserved ||| o.format.fieldMask) := by
        rw [BitVec.and_or_distrib_left, BitVec.and_or_distrib_left, hreserved]
        exact (congrArg (· ||| _) BitVec.or_zero).symm
    _ = w := by rw [masks_cover, BitVec.and_allOnes]

/-- Settles O2, by `encode_of_decode`: the reserved bits of a word that decodes are 0, so the word is its
opcode and its fields. -/
theorem decodedWordIsItsEncoding : Obligations.DecodedWordIsItsEncoding := fun _ _ => encode_of_decode

/-! ### The rows of the opcode map -/

/-- A row's mask is the opcode and the reserved bits of its format, its match the opcode alone (R80). -/
theorem row_masks : ∀ r ∈ opcodeTable,
    r.maskBits = opcodeMask ||| r.opcode.format.reserved ∧ r.matchBits = opcodeWord r.opcode := by
  decide

theorem row_eq_of_opcode : ∀ r₁ ∈ opcodeTable, ∀ r₂ ∈ opcodeTable, r₁.opcode = r₂.opcode → r₁ = r₂ := by
  decide

/-- Matching opcode and reserved bits in one mask is matching the opcode and having the reserved bits 0. -/
theorem and_opcodeMask_or_reserved_iff (w : OpWord) (o : Opcode) :
    w &&& (opcodeMask ||| o.format.reserved) = opcodeWord o ↔
      OpWord.opcodeBits w = o.bits ∧ w &&& o.format.reserved = 0 := by
  rw [← and_opcodeMask_eq_opcodeWord_iff, BitVec.and_or_distrib_left]
  refine ⟨fun h => ?_, fun ⟨hopcode, hreserved⟩ => by rw [hopcode, hreserved]; exact BitVec.or_zero⟩
  have hdisj := opcodeMask_and_reserved o.format
  have hopcode := congrArg (· &&& opcodeMask) h
  have hreserved := congrArg (· &&& o.format.reserved) h
  simp only [BitVec.and_or_distrib_right, BitVec.and_assoc, BitVec.and_self, hdisj,
    BitVec.and_comm o.format.reserved opcodeMask, opcodeWord_and_opcodeMask] at hopcode hreserved
  rw [← opcodeWord_and_opcodeMask, BitVec.and_assoc, hdisj] at hreserved
  exact ⟨by simpa using hopcode, by simpa using hreserved⟩

theorem row_matches_iff_decode {r : OpcodeRow} (hr : r ∈ opcodeTable) (w : OpWord) :
    w &&& r.maskBits = r.matchBits ↔ ∃ i, decode w = .ok i ∧ opcodeOf i = r.opcode := by
  obtain ⟨hmask, hmatch⟩ := row_masks r hr
  rw [hmask, hmatch, and_opcodeMask_or_reserved_iff]
  constructor
  · rintro ⟨hopcode, hreserved⟩
    exact ⟨_, (decode_eq_ok_iff _ _).2 ⟨_, hopcode, hreserved, rfl⟩, opcodeOf_instrOfFields _ w⟩
  · rintro ⟨i, hdecode, hi⟩
    obtain ⟨o, hopcode, hreserved, rfl⟩ := (decode_eq_ok_iff _ _).1 hdecode
    obtain rfl : o = r.opcode := (opcodeOf_instrOfFields o w).symm.trans hi
    exact ⟨hopcode, hreserved⟩

/-- Settles O3, by `row_matches_iff_decode`. -/
theorem decodeFollowsOpcodeMap : Obligations.DecodeFollowsOpcodeMap :=
  fun _ hr w => row_matches_iff_decode hr w

/-- Settles O4: a word that matches two rows decodes to an operation of both, and an opcode has one row. -/
theorem opcodeRowsNeverOverlap : Obligations.OpcodeRowsNeverOverlap := by
  intro r₁ h₁ r₂ h₂ w hw₁ hw₂
  obtain ⟨i, hi, ho₁⟩ := (row_matches_iff_decode h₁ w).1 hw₁
  obtain ⟨j, hj, ho₂⟩ := (row_matches_iff_decode h₂ w).1 hw₂
  obtain rfl : i = j := Except.ok.inj (hi.symm.trans hj)
  exact row_eq_of_opcode r₁ h₁ r₂ h₂ (ho₁.symm.trans ho₂)

/-- Settles O6, by running the decoder on the seven words. -/
theorem specExampleWordsDecode : Obligations.SpecExampleWordsDecode := by
  refine ⟨?_, ?_, ?_, ?_, ?_, ?_, ?_⟩ <;> decide

end Sys2Proof

namespace Sys2Proof.Machine

/-! ### Running a word -/

theorem runWord_of_decode {w : OpWord} {i : Instr} (h : decode w = .ok i) (s : State) :
    runWord w s = exec i s := by
  rw [runWord, h]

theorem next_ne_refused (s : State) (e : Refusal) : (.next s : Result) ≠ .refused e := nofun

theorem require_ne_refused {i : Instr} {s : State} {body : Result} {e : Refusal} (h : body ≠ .refused e) :
    require i s body ≠ .refused e := by
  unfold require
  split
  · exact h
  · exact nofun

theorem orFault_ne_refused {α : Type} (r : Except Fault α) {next : α → Result} {e : Refusal}
    (h : ∀ a, next a ≠ .refused e) : orFault r next ≠ .refused e := by
  cases r with
  | error f => exact nofun
  | ok a => exact h a

/-- No operation is refused: an operation completes or stops with a fault (R203, R204). -/
theorem exec_ne_refused (i : Instr) (s : State) (e : Refusal) : exec i s ≠ .refused e := by
  cases i with
  | tick => exact require_ne_refused (next_ne_refused _ e)
  | rxb d => exact require_ne_refused (next_ne_refused _ e)
  | poll => exact require_ne_refused (next_ne_refused _ e)
  | srsp ok =>
    refine require_ne_refused (orFault_ne_refused _ fun b => ?_)
    cases ok
    · exact next_ne_refused _ e
    · exact orFault_ne_refused _ fun _ => next_ne_refused _ e
  | lenc baud par stop2 dbits => exact require_ne_refused (next_ne_refused _ e)
  | ctrl dtr rts => exact require_ne_refused (next_ne_refused _ e)
  | rst => exact next_ne_refused _ e

/-- A word is refused exactly where the decoder rejects it, before any enabling check (R81, R205). -/
theorem runWord_eq_reservedEncoding_iff (w : OpWord) (s : State) :
    runWord w s = .refused .reservedEncoding ↔ ∃ e, decode w = .error e := by
  unfold runWord
  cases decode w with
  | error e => simp
  | ok i => simpa using exec_ne_refused i s _

/-- Settles O5: running a word is refused where the decoder rejects it, which is where its opcode names no
operation or a reserved bit is 1 (`decode_eq_error_iff`). -/
theorem reservedWordsAreRefused : Obligations.ReservedWordsAreRefused := by
  intro w s
  rw [runWord_eq_reservedEncoding_iff, decode_eq_error_iff, Opcode.ofBits_eq_none_iff, or_assoc]
  rfl

end Sys2Proof.Machine
end

section
/-!
The step and the enabling conditions (00_scope.md R3, 10_state.md R22, 30_encoding.md R83).
-/

namespace Sys2Proof.Machine

/-! ### The next input -/

theorem step_of_nil {s : State} (h : s.inputs = []) : step s = .next s := by
  rw [step, takeNext, h]

theorem step_of_cons {s : State} {i : Input} {rest : List Input} (h : s.inputs = i :: rest) :
    step s = takeInput i { s with inputs := rest } := by
  rw [step, takeNext, h]

/-- Settles O7: the next input is the word (`step_of_cons`), and it decodes (`runWord_of_decode`). -/
theorem stepRunsDecodedOperation : Obligations.StepRunsDecodedOperation := by
  intro s w rest i hinputs hdecode
  rw [step_of_cons hinputs, takeInput, runWord_of_decode hdecode]

/-- Settles O8, by `step_of_nil`. -/
theorem stepWithNoInputChangesNothing : Obligations.StepWithNoInputChangesNothing := fun _ => step_of_nil

/-! ### Where an operation is enabled, and what it answers elsewhere -/

theorem handshakeReady_eq_false_iff (s : State) : s.handshakeReady = false ↔ s.hsState = .cancelling := by
  rw [← Bool.not_eq_true, s.handshakeReady_iff, not_not]

theorem enabled_host {s : State} (hs : s.resetSeen = true) (hh : s.hsState ≠ .cancelling) :
    (s.resetSeen && s.handshakeReady) = true := by
  rw [hs, s.handshakeReady_iff.2 hh]
  rfl

theorem enabled_srsp_iff (ok : Bool) (s : State) :
    enabled (.srsp ok) s = true ↔ s.resetSeen = true ∧ 0 < s.flushRem := by
  simp [enabled]

/-- An operation that is not enabled does nothing and is ProtocolViolation (R205). -/
theorem exec_of_not_enabled {i : Instr} {s : State} (h : enabled i s = false) :
    exec i s = .fault .protocolViolation := by
  cases i with
  | tick => exact require_of_not_enabled h _
  | rxb d => exact require_of_not_enabled h _
  | poll => exact require_of_not_enabled h _
  | srsp ok => exact require_of_not_enabled h _
  | lenc baud par stop2 dbits => exact require_of_not_enabled h _
  | ctrl dtr rts => exact require_of_not_enabled h _
  | rst => cases h

theorem enabled_of_exec_next {i : Instr} {s t : State} (h : exec i s = .next t) : enabled i s = true := by
  by_contra hd
  rw [exec_of_not_enabled (Bool.eq_false_iff.2 hd)] at h
  cases h

/-! ### SRSP meets a byte or the fault of the buffer -/

/-- SRSP answers what peek answers, and with a byte it completes (R158). -/
theorem execSrsp_of_peek {ok : Bool} {s : State} {b : Byte} (he : enabled (.srsp ok) s = true)
    (hb : fifoPeek s = .ok b) :
    exec (.srsp ok) s = .next
      { s with rdPtr := if ok then nextPtr s.cfg s.rdPtr else s.rdPtr
               flushRem := if ok then s.flushRem - 1 else 0
               trace := s.trace ++ [if ok then .txOk b else .txFail b] } :=
  (execSrsp_eq_next_iff ok s _).2 ⟨he, b, hb, rfl⟩

theorem execSrsp_of_peek_error {ok : Bool} {s : State} {f : Fault} (he : enabled (.srsp ok) s = true)
    (hf : fifoPeek s = .error f) : exec (.srsp ok) s = .fault f := by
  show execSrsp ok s = _
  rw [execSrsp, require_of_enabled he, hf, orFault_error]

theorem fifoPeek_ne_protocolViolation (s : State) : fifoPeek s ≠ .error .protocolViolation := by
  unfold fifoPeek
  split
  · exact nofun
  · cases s.headByte? <;> exact nofun

/-- An enabled operation is no ProtocolViolation. -/
theorem exec_ne_protocolViolation {i : Instr} {s : State} (h : enabled i s = true) :
    exec i s ≠ .fault .protocolViolation := by
  cases i with
  | tick => exact (require_of_enabled h _).trans_ne nofun
  | rxb d => exact (require_of_enabled h _).trans_ne nofun
  | poll => exact (require_of_enabled h _).trans_ne nofun
  | srsp ok =>
    cases hp : fifoPeek s with
    | error f =>
      rw [execSrsp_of_peek_error h hp]
      rintro ⟨⟩
      exact fifoPeek_ne_protocolViolation s hp
    | ok b => exact (execSrsp_of_peek h hp).trans_ne nofun
  | lenc baud par stop2 dbits => exact (require_of_enabled h _).trans_ne nofun
  | ctrl dtr rts => exact (require_of_enabled h _).trans_ne nofun
  | rst => exact nofun

theorem exec_eq_protocolViolation_iff (i : Instr) (s : State) :
    exec i s = .fault .protocolViolation ↔ enabled i s = false := by
  refine ⟨fun h => ?_, exec_of_not_enabled⟩
  by_contra he
  exact exec_ne_protocolViolation (Bool.not_eq_false _ ▸ he) h

/-- Settles O9: ProtocolViolation is the answer exactly where the operation is not enabled
(`exec_eq_protocolViolation_iff`), which each row of R83 says when. -/
theorem disabledIsProtocolViolation : Obligations.DisabledIsProtocolViolation := by
  intro i s
  refine (exec_eq_protocolViolation_iff i s).trans ?_
  cases i <;> simp [enabled, handshakeReady_eq_false_iff, Bool.and_eq_false_iff, Nat.pos_iff_ne_zero,
    -Bool.and_eq_false_imp]

/-! ### No operation stops on an empty buffer -/

theorem fifoPeek_of_regInv {s : State} (h : s.RegInv) (hc : 0 < s.count) :
    ∃ b, s.headByte? = some b ∧ fifoPeek s = .ok b := by
  obtain ⟨b, hb⟩ := exists_headByte h hc
  exact ⟨b, hb, (fifoPeek_eq_ok_iff s b).2 ⟨hc, hb⟩⟩

/-- Where the invariant holds every enabled operation completes; SRSP is the one that could stop, and a
send outstanding has its byte in the buffer (R162). -/
theorem exec_of_enabled {i : Instr} {s : State} (hinv : s.Inv) (h : enabled i s = true) :
    ∃ t, exec i s = .next t := by
  cases i with
  | tick => exact ⟨_, require_of_enabled h _⟩
  | rxb d => exact ⟨_, require_of_enabled h _⟩
  | poll => exact ⟨_, require_of_enabled h _⟩
  | srsp ok =>
    obtain ⟨hs, hflush⟩ := (enabled_srsp_iff ok s).1 h
    have hreg := hinv.regs hs
    obtain ⟨b, -, hpeek⟩ := fifoPeek_of_regInv hreg (hflush.trans_le hreg.flushRem_le)
    exact ⟨_, execSrsp_of_peek h hpeek⟩
  | lenc baud par stop2 dbits => exact ⟨_, require_of_enabled h _⟩
  | ctrl dtr rts => exact ⟨_, require_of_enabled h _⟩
  | rst => exact ⟨_, rfl⟩

/-- Settles O10, by `exec_of_enabled`. -/
theorem enabledOperationsComplete : Obligations.EnabledOperationsComplete := fun _ _ => exec_of_enabled

theorem fifoSafe_next (t : State) : fifoSafe (.next t) := ⟨nofun, nofun, nofun⟩

theorem fifoSafe_refused (e : Refusal) : fifoSafe (.refused e) := ⟨nofun, nofun, nofun⟩

theorem exec_fifoSafe {s : State} (hinv : s.Inv) (i : Instr) : fifoSafe (exec i s) := by
  cases he : enabled i s with
  | false => rw [exec_of_not_enabled he]; exact ⟨nofun, nofun, nofun⟩
  | true =>
    obtain ⟨t, ht⟩ := exec_of_enabled hinv he
    rw [ht]
    exact fifoSafe_next t

/-- What an action of the environment that completes can do: a write to one of the two memories, an RST at
the end of a countdown, or nothing (R218, R135). -/
theorem envStep_next_cases {e : EnvAction} {s t : State} (h : envStep e s = .next t) :
    (∃ a v, t = { s with pmem := s.pmem.write16 s.cfg.byteOrder a v }) ∨
    (∃ a b, t = { s with pmem := s.pmem.set a b }) ∨
    (∃ a v, t = { s with prog := s.prog.write16 s.cfg.byteOrder a v }) ∨
    exec .rst s = .next t ∨ t = s := by
  cases e with
  | appWrite16 a v =>
    simp only [envStep] at h
    split at h <;> cases h
    exact .inl ⟨a, v, rfl⟩
  | appWrite8 a b =>
    simp only [envStep] at h
    split at h <;> cases h
    exact .inr (.inl ⟨a, b, rfl⟩)
  | progWrite16 a v =>
    simp only [envStep] at h
    split at h <;> cases h
    exact .inr (.inr (.inl ⟨a, v, rfl⟩))
  | countdownEnds =>
    simp only [envStep, countdownEnd] at h
    split at h
    · cases h; exact .inr (.inr (.inr (.inr rfl)))
    · split at h
      · exact .inr (.inr (.inr (.inl h)))
      · cases h; exact .inr (.inr (.inr (.inr rfl)))

/-- An action of the environment has no fault: R203 closes the list. -/
theorem envStep_ne_fault (e : EnvAction) (s : State) (f : Fault) : envStep e s ≠ .fault f := by
  cases e with
  | appWrite16 a v => simp only [envStep]; split <;> exact nofun
  | appWrite8 a b => simp only [envStep]; split <;> exact nofun
  | progWrite16 a v => simp only [envStep]; split <;> exact nofun
  | countdownEnds =>
    simp only [envStep, countdownEnd]
    split
    · exact nofun
    · split <;> exact nofun

theorem runWord_fifoSafe {s : State} (hinv : s.Inv) (w : OpWord) : fifoSafe (runWord w s) := by
  unfold runWord
  cases decode w with
  | error e => exact fifoSafe_refused _
  | ok i => exact exec_fifoSafe hinv i

theorem State.RegInv.with_inputs {s : State} (h : s.RegInv) (inputs : List Input) :
    State.RegInv { s with inputs := inputs } := { h with }

theorem State.Inv.with_inputs {s : State} (h : s.Inv) (inputs : List Input) :
    State.Inv { s with inputs := inputs } :=
  { h with regs := fun hs => State.RegInv.with_inputs (h.regs hs) inputs }

/-- Settles O11: the next input is a word or an action of the environment, and the invariant does not read
the list of inputs. -/
theorem noStepMeetsAnEmptyBuffer : Obligations.NoStepMeetsAnEmptyBuffer := by
  intro s hinv
  cases hinputs : s.inputs with
  | nil => rw [step_of_nil hinputs]; exact fifoSafe_next s
  | cons i rest =>
    rw [step_of_cons hinputs]
    cases i with
    | word w => exact runWord_fifoSafe (State.Inv.with_inputs hinv rest) w
    | env e => exact ⟨envStep_ne_fault e _ _, envStep_ne_fault e _ _, envStep_ne_fault e _ _⟩

end Sys2Proof.Machine
end

section
/-!
The 16-bit locations outside the block, and what arm, cancel, LENC and CTRL do to them (20_memory.md R53,
R56, R63, R65, R67; 41_handshake.md R124 to R131, R137).
-/

namespace Sys2Proof.Machine

/-! ### Reads and writes of a location -/

/-- Each byte of a memory after a 16-bit write (R53, R56). -/
theorem Memory.byte?_write16 (m : Memory) (o : ByteOrder) (a : Nat) (v : Half) (b : Nat) :
    (m.write16 o a v).byte? b =
      if hiByteAddr o a = b then some (v.extractLsb' 8 8)
      else if loByteAddr o a = b then some (v.extractLsb' 0 8) else m.byte? b := by
  rw [Memory.write16, Memory.byte?_set, Memory.byte?_set]

/-- Writing the same value twice is writing it once (R56). -/
theorem Memory.write16_write16 {m : Memory} (h : m.wf) (o : ByteOrder) (a : Nat) (v : Half) :
    (m.write16 o a v).write16 o a v = m.write16 o a v := by
  have h₁ := Memory.write16_wf h o a v
  refine Memory.ext_of_byte? (Memory.write16_wf h₁ o a v) h₁ fun b => ?_
  simp only [Memory.byte?_write16]
  split_ifs <;> rfl

/-- The location written reads as the value written. -/
theorem State.pmem16_of_write16 {s t : State} {a : Nat} {v : Half} (hc : t.cfg = s.cfg)
    (ht : t.pmem = s.pmem.write16 s.cfg.byteOrder a v) : t.pmem16 a = v := by
  rw [State.pmem16, ht, hc]
  exact Memory.read16_write16_same _ _ _ _ _

theorem samePmemOutside_of_write16 {s t : State} {a : Nat} {v : Half}
    (ht : t.pmem = s.pmem.write16 s.cfg.byteOrder a v) : samePmemOutside a s t := by
  intro b h₀ h₁
  rw [ht]
  exact Memory.byte?_write16_other _ _ _ h₀ h₁

/-- Settles O46: the value is read back, the bytes outside are kept, and the second write of the value finds
every byte as it writes it (`Memory.write16_write16`). -/
theorem memWriteIsLocalAndIdempotent : Obligations.MemWriteIsLocalAndIdempotent := by
  intro a v s
  have hpmem := memWrite_pmem a v s
  exact ⟨State.pmem16_of_write16 (memWrite_cfg a v s) hpmem, samePmemOutside_of_write16 hpmem, rfl, rfl,
    fun hwf => Memory.write16_write16 hwf _ a v⟩

theorem extractLsb'_high_append (x y : Byte) : (x ++ y).extractLsb' 8 8 = x := by
  refine BitVec.eq_of_getLsbD_eq fun n hn => ?_
  rw [BitVec.getLsbD_extractLsb', BitVec.getLsbD_append]
  simp [hn]

theorem extractLsb'_low_append (x y : Byte) : (x ++ y).extractLsb' 0 8 = y := by
  refine BitVec.eq_of_getLsbD_eq fun n hn => ?_
  rw [BitVec.getLsbD_extractLsb', BitVec.getLsbD_append]
  simp [hn]

/-- A 16-bit value after its low byte is written (R53, R67). -/
theorem Memory.read16_set_lo (m : Memory) (o : ByteOrder) (f : Nat → Byte) (a : Nat) (b : Byte) :
    Memory.read16 (m.set (loByteAddr o a) b) o f a = (m.read16 o f a).extractLsb' 8 8 ++ b := by
  have hhi := Memory.byte?_set_other m b (loByteAddr_ne_hiByteAddr o a)
  simp only [Memory.read16, extractLsb'_high_append, Memory.byteOr, hhi, Memory.byte?_set_same,
    Option.getD_some]

/-- A 16-bit value after its high byte is written (R53, R67). -/
theorem Memory.read16_set_hi (m : Memory) (o : ByteOrder) (f : Nat → Byte) (a : Nat) (b : Byte) :
    Memory.read16 (m.set (hiByteAddr o a) b) o f a = b ++ (m.read16 o f a).extractLsb' 0 8 := by
  have hlo := Memory.byte?_set_other m b (loByteAddr_ne_hiByteAddr o a).symm
  simp only [Memory.read16, extractLsb'_low_append, Memory.byteOr, hlo, Memory.byte?_set_same,
    Option.getD_some]

/-- Settles O47: the byte written is the low or the high one of the location by the byte order
(`Memory.read16_set_lo`, `Memory.read16_set_hi`). -/
theorem byteWriteIsCombinedByByteOrder : Obligations.ByteWriteIsCombinedByByteOrder := by
  intro a b s
  refine ⟨fun ha => ⟨_, if_pos ha, fun ho => ?_, fun ho => ?_, fun x hx => ?_, rfl⟩,
    fun ha => ⟨_, if_pos ha, fun ho => ?_, fun ho => ?_, fun x hx => ?_, rfl⟩⟩
  · simp only [State.pmem16, ho]
    exact Memory.read16_set_lo s.pmem .little Config.pmemPowerOn a b
  · simp only [State.pmem16, ho]
    exact Memory.read16_set_hi s.pmem .big Config.pmemPowerOn a b
  · exact Memory.byte?_set_other _ _ hx.symm
  · simp only [State.pmem16, ho]
    exact Memory.read16_set_hi s.pmem .little Config.pmemPowerOn a b
  · simp only [State.pmem16, ho]
    exact Memory.read16_set_lo s.pmem .big Config.pmemPowerOn a b
  · exact Memory.byte?_set_other _ _ hx.symm

/-- Settles O48: the input is taken and the location written (`step_of_cons`). -/
theorem applicationWriteIsSeenByTheNextRead : Obligations.ApplicationWriteIsSeenByTheNextRead := by
  intro a v rest s hinputs ha
  refine ⟨{ s with pmem := s.pmem.write16 s.cfg.byteOrder a v, inputs := rest },
    (step_of_cons hinputs).trans (if_pos ha), ?_, ?_, rfl, rfl⟩
  · exact State.pmem16_of_write16 (s := s) (v := v) rfl rfl
  · exact samePmemOutside_of_write16 (v := v) rfl

/-- Settles O49: the write does not touch slot_sel, and the probe of the next RST reads the word written. -/
theorem signatureChangeIsSeenAtTheNextRst : Obligations.SignatureChangeIsSeenAtTheNextRst := by
  intro v s ha
  refine ⟨_, _, if_pos ha, rfl, rfl, ?_⟩
  simp [State.probedSlot, State.prog16, Memory.read16_write16_same]

/-! ### arm and cancel -/

/-- arm in closed form (R127, R128). -/
theorem arm_eq (s : State) :
    arm s = { s with
      hsState := .armed
      backup := if s.hsState = .idle ∧ s.slotSel = .legacy then s.pmem16 s.cfg.legacySlotAddr else s.backup
      pmem := s.pmem.write16 s.cfg.byteOrder (slotAddr s.cfg s.slotSel) s.cfg.magicKey
      trace := s.trace ++
        (if s.hsState = .idle ∧ s.slotSel = .legacy then
          [.pmr s.cfg.legacySlotAddr (s.pmem16 s.cfg.legacySlotAddr)] else []) ++
        [.pmw (slotAddr s.cfg s.slotSel) s.cfg.magicKey, .rt .startArm] } := by
  by_cases h : s.hsState = .idle ∧ s.slotSel = .legacy
  · rw [arm, armCapture_of_fresh h, armCommit_eq]
    simp only [if_pos h]
  · rw [arm, armCapture_of_not_fresh h, armCommit_eq]
    simp only [if_neg h, List.append_nil]

theorem arm_cfg (s : State) : (arm s).cfg = s.cfg := (congrArg State.cfg (arm_eq s) :)

theorem arm_pmem (s : State) :
    (arm s).pmem = s.pmem.write16 s.cfg.byteOrder (slotAddr s.cfg s.slotSel) s.cfg.magicKey :=
  congrArg State.pmem (arm_eq s)

theorem cancel_pmem (s : State) :
    (cancel s).pmem = s.pmem.write16 s.cfg.byteOrder (slotAddr s.cfg s.slotSel) s.clearValue :=
  congrArg State.pmem (cancel_eq s)

theorem arm_result (s : State) : ArmResult s (arm s) :=
  ⟨rfl, congrArg State.backup (arm_eq s), State.pmem16_of_write16 (arm_cfg s) (arm_pmem s),
    samePmemOutside_of_write16 (arm_pmem s), congrArg State.trace (arm_eq s), by rw [arm_eq]⟩

theorem cancel_result (s : State) : CancelResult s (cancel s) := by
  refine ⟨rfl, ?_, samePmemOutside_of_write16 (cancel_pmem s), ?_, by rw [cancel_eq]⟩
  · rw [← s.clearValue_eq]
    exact State.pmem16_of_write16 (s := s) rfl (cancel_pmem s)
  · rw [← s.clearValue_eq]
    exact congrArg State.trace (cancel_eq s)

/-- Settles O30, by `cancel_result`. -/
theorem cancelRestoresOrZeroesTheSlot : Obligations.CancelRestoresOrZeroesTheSlot :=
  fun s => ⟨rfl, cancel_result s⟩

theorem armOrCancel_samePmemOutside (arms : Bool) (s : State) :
    samePmemOutside (slotAddr s.cfg s.slotSel) s (armOrCancel arms s) := by
  cases arms
  · exact (cancel_result s).others
  · exact (arm_result s).others

/-! ### LENC and CTRL -/

theorem lencArms_lencLatch_iff (baud : Baud) (par : BitVec 2) (stop2 : BitVec 1) (dbits : BitVec 4)
    (s : State) :
    (lencLatch baud par stop2 dbits s).lencArms = true ↔
      s.cfg.leEventArms = true ∧ baud = 1200 ∧ s.curDtr = false := by
  rw [State.lencArms, Bool.and_eq_true, State.armCond_iff]
  rfl

theorem armCond_ctrlLatch_iff (dtr : Bool) (s : State) :
    (ctrlLatch dtr s).armCond = true ↔ s.curBaud = 1200 ∧ dtr = false := by
  rw [State.armCond_iff]
  rfl

theorem exec_lenc {s : State} (hs : s.resetSeen = true) (hh : s.hsState ≠ .cancelling) (baud : Baud)
    (par : BitVec 2) (stop2 : BitVec 1) (dbits : BitVec 4) :
    exec (.lenc baud par stop2 dbits) s = .next (lencEffect baud par stop2 dbits s) :=
  require_of_enabled (i := .lenc baud par stop2 dbits) (enabled_host hs hh) _

theorem exec_ctrl {s : State} (hs : s.resetSeen = true) (hh : s.hsState ≠ .cancelling) (dtr rts : Bool) :
    exec (.ctrl dtr rts) s = .next (ctrlEffect dtr s) :=
  require_of_enabled (i := .ctrl dtr rts) (enabled_host hs hh) _

/-- Settles O31: enabled, LENC latches and then arms or cancels as `lencArms_lencLatch_iff` says. -/
theorem lencForwardsThenArmsOrCancels : Obligations.LencForwardsThenArmsOrCancels := by
  intro baud par stop2 dbits s
  refine ⟨fun hs hh => ⟨_, exec_lenc hs hh baud par stop2 dbits, ?_⟩,
    (disabledIsProtocolViolation (.lenc baud par stop2 dbits) s).2⟩
  simp only [← lencArms_lencLatch_iff baud par stop2 dbits s, lencEffect, armOrCancel]
  split
  · exact arm_result (lencLatch baud par stop2 dbits s)
  · exact cancel_result (lencLatch baud par stop2 dbits s)

/-- Settles O32: enabled, CTRL holds DTR and then arms or cancels as `armCond_ctrlLatch_iff` says; the word is
the encoder's. -/
theorem ctrlHoldsDtrThenArmsOrCancels : Obligations.CtrlHoldsDtrThenArmsOrCancels := by
  intro dtr rts s
  have hword : (0x6000000000000000 ||| (if dtr = true then 1 else 0) ||| (if rts = true then 2 else 0)) =
      encode (.ctrl dtr rts) := by
    cases dtr <;> cases rts <;> decide
  refine ⟨runWord_of_decode (hword ▸ decode_encode _) s, fun hs hh => ⟨_, exec_ctrl hs hh dtr rts, ?_⟩,
    (disabledIsProtocolViolation (.ctrl dtr rts) s).2⟩
  simp only [← armCond_ctrlLatch_iff dtr s, ctrlEffect, armOrCancel]
  split
  · exact arm_result (ctrlLatch dtr s)
  · exact cancel_result (ctrlLatch dtr s)

/-- An operation is a FIFO operation, one of the two host events, or RST (R136). -/
theorem instr_cases (i : Instr) : isFifoOp i = true ∨ isHandshakeOp i = true ∨ i = .rst := by
  cases i <;> simp [isFifoOp, isHandshakeOp]

/-- A host event that completes latches its fields, and then exactly one of arm and cancel follows (R124 to
R126); the latch is no more than the three registers and the forward of LENC. -/
theorem exec_host_cases {i : Instr} (hi : isHandshakeOp i = true) {s t : State} (h : exec i s = .next t) :
    ∃ arms u, t = armOrCancel arms u ∧
      ((∃ baud par stop2 dbits, i = .lenc baud par stop2 dbits ∧ u = lencLatch baud par stop2 dbits s) ∨
        ∃ dtr rts, i = .ctrl dtr rts ∧ u = ctrlLatch dtr s) := by
  cases i with
  | lenc baud par stop2 dbits =>
    obtain ⟨-, ⟨⟩⟩ := (require_eq_next_iff _ _ _ _).1 h
    exact ⟨_, _, rfl, .inl ⟨_, _, _, _, rfl, rfl⟩⟩
  | ctrl dtr rts =>
    obtain ⟨-, ⟨⟩⟩ := (require_eq_next_iff _ _ _ _).1 h
    exact ⟨_, _, rfl, .inr ⟨_, _, rfl, rfl⟩⟩
  | tick => cases hi
  | rxb d => cases hi
  | poll => cases hi
  | srsp ok => cases hi
  | rst => cases hi

/-- No FIFO operation writes persistence memory (R60, R136). -/
theorem exec_fifo_pmem {i : Instr} (hi : isFifoOp i = true) {s t : State} (h : exec i s = .next t) :
    t.pmem = s.pmem := by
  obtain ⟨ef, ht, -⟩ := exec_fifo_next hi h
  exact (congrArg State.pmem ht).symm

/-- Settles O43: the two host events write the active slot and nothing else, the other operations nothing. -/
theorem onlyTheActiveSlotIsWritten : Obligations.OnlyTheActiveSlotIsWritten := by
  intro i s t h
  rcases instr_cases i with hf | hh | rfl
  · intro b _ _
    rw [exec_fifo_pmem hf h]
  · obtain ⟨arms, u, rfl, ⟨baud, par, stop2, dbits, -, rfl⟩ | ⟨dtr, rts, -, rfl⟩⟩ := exec_host_cases hh h
    · exact armOrCancel_samePmemOutside arms (lencLatch baud par stop2 dbits s)
    · exact armOrCancel_samePmemOutside arms (ctrlLatch dtr s)
  · cases h
    exact fun _ _ _ => rfl

/-! ### The touch at 1200 baud (R137) -/

/-- arm and cancel change hs_state, backup, persistence memory and the trace, and nothing else. -/
theorem armOrCancel_leaves (arms : Bool) (s : State) :
    { armOrCancel arms s with hsState := s.hsState, backup := s.backup, pmem := s.pmem,
                              trace := s.trace } = s := by
  cases arms
  · exact congrArg (fun t : State => { t with backup := s.backup }) (cancel_result s).frame
  · exact (arm_result s).frame

theorem armOrCancel_hsState (arms : Bool) (s : State) :
    (armOrCancel arms s).hsState = if arms then .armed else .idle := by
  cases arms <;> rfl

theorem armOrCancel_hsState_ne (arms : Bool) (s : State) : (armOrCancel arms s).hsState ≠ .cancelling := by
  rw [armOrCancel_hsState]
  split <;> exact nofun

@[simp] theorem armOrCancel_cfg (arms : Bool) (s : State) : (armOrCancel arms s).cfg = s.cfg :=
  (congrArg State.cfg (armOrCancel_leaves arms s) :)
@[simp] theorem armOrCancel_store (arms : Bool) (s : State) : (armOrCancel arms s).store = s.store :=
  (congrArg State.store (armOrCancel_leaves arms s) :)
@[simp] theorem armOrCancel_wrPtr (arms : Bool) (s : State) : (armOrCancel arms s).wrPtr = s.wrPtr :=
  (congrArg State.wrPtr (armOrCancel_leaves arms s) :)
@[simp] theorem armOrCancel_rdPtr (arms : Bool) (s : State) : (armOrCancel arms s).rdPtr = s.rdPtr :=
  (congrArg State.rdPtr (armOrCancel_leaves arms s) :)
@[simp] theorem armOrCancel_sinceRx (arms : Bool) (s : State) : (armOrCancel arms s).sinceRx = s.sinceRx :=
  (congrArg State.sinceRx (armOrCancel_leaves arms s) :)
@[simp] theorem armOrCancel_timeout (arms : Bool) (s : State) : (armOrCancel arms s).timeout = s.timeout :=
  (congrArg State.timeout (armOrCancel_leaves arms s) :)
@[simp] theorem armOrCancel_flushRem (arms : Bool) (s : State) : (armOrCancel arms s).flushRem = s.flushRem :=
  (congrArg State.flushRem (armOrCancel_leaves arms s) :)
@[simp] theorem armOrCancel_slotSel (arms : Bool) (s : State) : (armOrCancel arms s).slotSel = s.slotSel :=
  (congrArg State.slotSel (armOrCancel_leaves arms s) :)
@[simp] theorem armOrCancel_curBaud (arms : Bool) (s : State) : (armOrCancel arms s).curBaud = s.curBaud :=
  (congrArg State.curBaud (armOrCancel_leaves arms s) :)
@[simp] theorem armOrCancel_prevBaud (arms : Bool) (s : State) : (armOrCancel arms s).prevBaud = s.prevBaud :=
  (congrArg State.prevBaud (armOrCancel_leaves arms s) :)
@[simp] theorem armOrCancel_curDtr (arms : Bool) (s : State) : (armOrCancel arms s).curDtr = s.curDtr :=
  (congrArg State.curDtr (armOrCancel_leaves arms s) :)
@[simp] theorem armOrCancel_resetSeen (arms : Bool) (s : State) :
    (armOrCancel arms s).resetSeen = s.resetSeen :=
  (congrArg State.resetSeen (armOrCancel_leaves arms s) :)
@[simp] theorem armOrCancel_prog (arms : Bool) (s : State) : (armOrCancel arms s).prog = s.prog :=
  (congrArg State.prog (armOrCancel_leaves arms s) :)
@[simp] theorem armOrCancel_inputs (arms : Bool) (s : State) : (armOrCancel arms s).inputs = s.inputs :=
  (congrArg State.inputs (armOrCancel_leaves arms s) :)

/-- With the baud at 1200 a CTRL with DTR deasserted arms, whatever was armed before. -/
theorem ctrlEffect_arms {s : State} (h : s.curBaud = 1200) : ctrlEffect false s = arm (ctrlLatch false s) :=
  if_pos ((armCond_ctrlLatch_iff false s).2 ⟨h, rfl⟩)

/-- A CTRL with DTR asserted cancels, whatever the baud. -/
theorem ctrlEffect_cancels (s : State) : ctrlEffect true s = cancel (ctrlLatch true s) :=
  if_neg fun h => nomatch ((armCond_ctrlLatch_iff true s).1 h).2

/-- An arm that follows an arm keeps the backup of the first (R128). -/
theorem arm_backup_of_armed {s : State} (h : s.hsState = .armed) : (arm s).backup = s.backup := by
  rw [(arm_result s).backup, h]
  rfl

/-- Settles O33: whatever the LENC did, the CTRL finds baud 1200 and DTR deasserted and arms, and the second
CTRL finds DTR asserted and cancels; where the LENC armed, the CTRL is a re-arm and keeps its backup. -/
theorem touchAt1200ArmsAndDtrCancels : Obligations.TouchAt1200ArmsAndDtrCancels := by
  intro par stop2 dbits rts₁ rts₂ s hs hidle
  set arms := (lencLatch 1200 par stop2 dbits s).lencArms
  set s₁ := lencEffect 1200 par stop2 dbits s
  have hcfg : s₁.cfg = s.cfg := armOrCancel_cfg _ _
  have hslot : s₁.slotSel = s.slotSel := armOrCancel_slotSel _ _
  have hseen : s₁.resetSeen = true := (armOrCancel_resetSeen _ _).trans hs
  have hbaud : s₁.curBaud = 1200 := armOrCancel_curBaud _ _
  have hlenc : exec (.lenc 1200 par stop2 dbits) s = .next s₁ := exec_lenc hs (by simp [hidle]) _ _ _ _
  have hctrl : exec (.ctrl false rts₁) s₁ = .next (arm (ctrlLatch false s₁)) := by
    rw [exec_ctrl hseen (armOrCancel_hsState_ne _ _), ctrlEffect_arms hbaud]
  set t := arm (ctrlLatch false s₁)
  have hA := arm_result (ctrlLatch false s₁)
  have hcfg' : t.cfg = s.cfg := (congrArg State.cfg hA.frame).trans hcfg
  have hslot' : t.slotSel = s.slotSel := (congrArg State.slotSel hA.frame).trans hslot
  have hseen' : t.resetSeen = true := (congrArg State.resetSeen hA.frame).trans hseen
  have hC := cancel_result (ctrlLatch true t)
  have hcancel : exec (.ctrl true rts₂) t = .next (cancel (ctrlLatch true t)) := by
    rw [exec_ctrl hseen' (by rw [hA.hsState]; exact nofun), ctrlEffect_cancels]
  refine ⟨t, cancel (ctrlLatch true t), by rw [runOps_cons, hlenc, andThen_next, runOps_cons, hctrl]; rfl,
    hA.hsState, ?_, ?_, hcancel, hC.hsState, ?_, fun hlegacy hevent hdtr => ?_, ?_⟩
  · have := hA.slot
    simpa [hcfg, hslot] using this
  · rw [hA.trace]
    simp
  · have := hC.slot
    simpa [hcfg', hslot'] using this
  · have hfirst : s₁ = arm (lencLatch 1200 par stop2 dbits s) :=
      if_pos ((lencArms_lencLatch_iff _ _ _ _ _).2 ⟨hevent, rfl, hdtr⟩)
    have hbackup : t.backup = s₁.backup := arm_backup_of_armed (by rw [ctrlLatch_hsState, hfirst]; rfl)
    rw [hbackup, hfirst, (arm_result _).backup]
    exact if_pos ⟨hidle, hlegacy⟩
  · have := hC.trace
    simpa [hcfg', hslot'] using this

end Sys2Proof.Machine
end

section
/-!
TICK, RXB, POLL and SRSP on the registers and on the queue (42_flush_scheduler.md; 40_ring_buffer.md R109).
-/

namespace Sys2Proof.Machine

/-! ### Where enabled, what each does -/

theorem exec_tick {s : State} (hs : s.resetSeen = true) :
    exec .tick s = .next { s with sinceRx := satW s.cfg.tw (s.sinceRx + 1) } :=
  require_of_enabled (i := .tick) hs _

theorem exec_rxb {s : State} (hs : s.resetSeen = true) (d : Byte) : exec (.rxb d) s = .next (rxbEffect d s) :=
  require_of_enabled (i := .rxb d) hs _

theorem exec_poll {s : State} (hs : s.resetSeen = true) (hf : s.flushRem = 0) :
    exec .poll s = .next (pollEffect s) :=
  require_of_enabled (i := .poll) (by simp [enabled, hs, hf]) _

theorem enabled_srsp {s : State} (hs : s.resetSeen = true) (hf : 0 < s.flushRem) (ok : Bool) :
    enabled (.srsp ok) s = true := (enabled_srsp_iff ok s).2 ⟨hs, hf⟩

/-- POLL where the flush condition holds: the budget is the count (R156). -/
theorem exec_poll_of_flushCond {s : State} (hs : s.resetSeen = true) (hf : s.flushRem = 0)
    (hc : s.flushCond = true) :
    exec .poll s = .next { s with flushRem := s.count, trace := s.trace ++ [.flush s.count] } := by
  rw [exec_poll hs hf, pollEffect, if_pos hc]
  rfl

/-- Settles O12: the meaning of TICK where enabled is its saturating sum. -/
theorem tickSaturatesSinceRx : Obligations.TickSaturatesSinceRx :=
  fun s => ⟨exec_tick, (disabledIsProtocolViolation .tick s).2⟩

/-- Settles O13, by the closed form of RXB (`rxbEffect_eq`), with room and without. -/
theorem rxbSetsTimeoutAndInsertsOrDrops : Obligations.RxbSetsTimeoutAndInsertsOrDrops := by
  intro d s
  refine ⟨fun hs => ⟨_, exec_rxb hs d, ?_⟩, (disabledIsProtocolViolation (.rxb d) s).2⟩
  rw [rxbEffect_eq]
  refine ⟨?_, rfl, ?_, rfl⟩
  · by_cases hc : s.count = 0
    · simp [State.isEmpty, hc]
    · simp [State.isEmpty, hc, Nat.pos_of_ne_zero hc, satW]
  · split
    · next hfull =>
      have hf : s.isFull = true := s.isFull_iff.2 hfull
      simp [hf]
    · next hroom =>
      have hf : s.isFull = false := s.isFull_eq_false_iff.2 hroom
      simp only [hf]
      exact ⟨Memory.byte?_set_same _ _ _, fun a ha => Memory.byte?_set_other _ _ ha.symm, rfl, rfl⟩

/-- Settles O14: enabled, POLL follows the flush condition (`State.flushCond_iff`). -/
theorem pollStartsFlushWhenDueOrHalf : Obligations.PollStartsFlushWhenDueOrHalf := by
  intro s
  refine ⟨fun hs hf => ?_, (disabledIsProtocolViolation .poll s).2⟩
  rw [exec_poll hs hf, pollEffect]
  simp only [State.flushCond_iff]
  rfl

/-- Settles O15: SRSP finds the byte at the head (`execSrsp_of_peek`); the word is the encoder's. -/
theorem srspRemovesOrEndsFlush : Obligations.SrspRemovesOrEndsFlush := by
  intro ok s
  have hword : (0x4000000000000000 ||| (if ok = true then 1 else 0)) = encode (.srsp ok) := by
    cases ok <;> decide
  refine ⟨runWord_of_decode (hword ▸ decode_encode _) s, fun b hs hf hc hb => ?_,
    (disabledIsProtocolViolation (.srsp ok) s).2⟩
  rw [execSrsp_of_peek (enabled_srsp hs hf ok) ((fifoPeek_eq_ok_iff s b).2 ⟨hc, hb⟩)]
  cases ok <;> rfl

/-- Settles O16: peek answers its fault, and SRSP stops with it. -/
theorem srspOnAnEmptyBufferIsPeekEmpty : Obligations.SrspOnAnEmptyBufferIsPeekEmpty :=
  fun ok _ hc hs hf => execSrsp_of_peek_error (enabled_srsp hs hf ok) (fifoPeek_of_empty hc)

/-- Settles O45: each output is its function of the state, the flags by their `_iff` lemmas. -/
theorem statusOutputsFollowTheState : Obligations.StatusOutputsFollowTheState := by
  intro s
  refine ⟨rfl, s.isEmpty_iff, s.isFull_iff, s.busy_iff, rfl, rfl, fun h => if_pos (s.busy_iff.2 h), ?_, ?_⟩
  · cases h : s.hsState <;> simp [State.statusOutputs, HsState.code, h]
  · cases h : s.slotSel <;> simp [State.statusOutputs, Slot.code, h]

/-! ### The queue and the register invariant through each operation -/

/-- Timing registers that fit their width and any trace keep the register invariant. -/
theorem State.RegInv.with_timing {s : State} (h : s.RegInv) {since timeout : Nat} (hs : since < 2 ^ s.cfg.tw)
    (ht : timeout < 2 ^ s.cfg.tw) (trace : List Event) :
    State.RegInv { s with sinceRx := since, timeout := timeout, trace := trace } :=
  { h with sinceRx_lt := hs, timeout_lt := ht }

/-- A budget that does not pass the count and any trace keep the register invariant. -/
theorem State.RegInv.with_budget {s : State} (h : s.RegInv) {n : Nat} (hn : n ≤ s.count) (trace : List Event) :
    State.RegInv { s with flushRem := n, trace := trace } :=
  { h with flushRem_le := hn }

theorem satW_lt (w v : Nat) : satW w v < 2 ^ w :=
  (Nat.min_le_right v _).trans_lt (Nat.sub_lt (Nat.two_pow_pos w) Nat.one_pos)

theorem rxbEffect_regInv {s : State} (h : s.RegInv) (d : Byte) : (rxbEffect d s).RegInv := by
  have htimeout : (if s.isEmpty then s.timeout else satW s.cfg.tw (2 * s.sinceRx)) < 2 ^ s.cfg.tw := by
    split
    · exact h.timeout_lt
    · exact satW_lt _ _
  rw [rxbEffect_eq]
  cases hf : s.isFull with
  | true => exact State.RegInv.with_timing h (Nat.two_pow_pos _) htimeout _
  | false =>
    obtain ⟨hq, -, -⟩ := queue_append h (s.isFull_eq_false_iff.1 hf) d
    exact State.RegInv.with_timing hq (Nat.two_pow_pos _) htimeout _

/-- RXB puts its byte at the end of the queue, or leaves a full queue (R109, R111). -/
theorem rxbEffect_fifo {s : State} (h : s.RegInv) (d : Byte) :
    (rxbEffect d s).fifo = if s.isFull then s.fifo else s.fifo ++ [d] := by
  rw [rxbEffect_eq]
  cases hf : s.isFull with
  | true => rfl
  | false =>
    obtain ⟨-, -, hq⟩ := queue_append h (s.isFull_eq_false_iff.1 hf) d
    exact hq

/-- After an RXB the buffer is not empty: a full one holds N bytes, another one more than before. -/
theorem rxbEffect_count_pos {s : State} (h : s.RegInv) (d : Byte) : 0 < (rxbEffect d s).count := by
  rw [rxbEffect_eq]
  cases hf : s.isFull with
  | true => exact (capacity_pos s.cfg).trans_eq (s.isFull_iff.1 hf).symm
  | false =>
    obtain ⟨-, hq, -⟩ := queue_append h (s.isFull_eq_false_iff.1 hf) d
    exact (Nat.succ_pos s.count).trans_eq hq.symm

theorem pollEffect_regInv {s : State} (h : s.RegInv) : (pollEffect s).RegInv := by
  rw [pollEffect_eq]
  refine State.RegInv.with_budget h ?_ _
  split
  · exact le_rfl
  · exact h.flushRem_le

/-- SRSP ok with a send outstanding takes the head off the queue, and keeps the register invariant (R158,
R162). -/
theorem exec_srsp_ok {s : State} (h : s.RegInv) (hs : s.resetSeen = true) (hf : 0 < s.flushRem) :
    ∃ b t, exec (.srsp true) s = .next t ∧ s.fifo = b :: t.fifo ∧ t.trace = s.trace ++ [.txOk b] ∧
      t.count + 1 = s.count ∧ t.flushRem = s.flushRem - 1 ∧ t.resetSeen = true ∧ t.RegInv := by
  have hc : 0 < s.count := hf.trans_le h.flushRem_le
  obtain ⟨b, hb, hpeek⟩ := fifoPeek_of_regInv h hc
  obtain ⟨hreg, hcount, hfifo⟩ := queue_tail h hc hb (Nat.sub_le_sub_right h.flushRem_le 1)
  exact ⟨b, _, execSrsp_of_peek (enabled_srsp hs hf true) hpeek, hfifo, rfl,
    (congrArg (· + 1) hcount).trans (Nat.sub_add_cancel hc), rfl, hs,
    State.RegInv.with_budget hreg hreg.flushRem_le _⟩

/-- SRSP fail with a send outstanding ends the flush and removes nothing (R158, R159). -/
theorem exec_srsp_fail {s : State} (h : s.RegInv) (hs : s.resetSeen = true) (hf : 0 < s.flushRem) :
    ∃ b, exec (.srsp false) s = .next { s with flushRem := 0, trace := s.trace ++ [.txFail b] } := by
  obtain ⟨b, -, hpeek⟩ := fifoPeek_of_regInv h (hf.trans_le h.flushRem_le)
  exact ⟨b, execSrsp_of_peek (enabled_srsp hs hf false) hpeek⟩

/-! ### The statements about the queue -/

/-- Settles O19: both answer the byte at the head, and `queue_tail` counts. -/
theorem peekThenRemoveGivesTheSameByte : Obligations.PeekThenRemoveGivesTheSameByte := by
  intro s hinv hs hc
  have hreg := hinv.regs hs
  obtain ⟨b, hb, hpeek⟩ := fifoPeek_of_regInv hreg hc
  obtain ⟨-, hcount, -⟩ := queue_tail hreg hc hb (Nat.zero_le _)
  exact ⟨b, _, hpeek, (fifoRemove_eq_ok_iff s b _).2 ⟨hpeek, rfl⟩,
    (congrArg (· + 1) hcount).trans (Nat.sub_add_cancel hc), rfl⟩

/-- Settles O22, by `rxbEffect_fifo`. -/
theorem rxbAppendsToTheQueue : Obligations.RxbAppendsToTheQueue := by
  intro d s hinv hs
  refine ⟨_, exec_rxb hs d, ?_⟩
  simp only [rxbEffect_fifo (hinv.regs hs) d, State.isFull_iff]
  rfl

/-- Settles O23, by `exec_srsp_ok`. -/
theorem srspOkTakesTheOldestByte : Obligations.SrspOkTakesTheOldestByte := by
  intro s hinv hs hf
  obtain ⟨b, t, hexec, hfifo, htrace, hcount, -⟩ := exec_srsp_ok (hinv.regs hs) hs hf
  exact ⟨b, t, hexec, hfifo, htrace, hcount⟩

/-- A flush answered "sent" `n` times, `n` its budget: by induction on the budget, each SRSP taking the head
off the queue. -/
theorem runOps_srsp_ok (n : Nat) {s : State} (h : s.RegInv) (hs : s.resetSeen = true) (hn : s.flushRem = n) :
    ∃ t, runOps (List.replicate n (.srsp true)) s = .next t ∧ t.flushRem = 0 ∧
      t.trace = s.trace ++ (s.fifo.take n).map Event.txOk ∧ t.fifo = s.fifo.drop n := by
  induction n generalizing s with
  | zero => exact ⟨s, rfl, hn, by simp, rfl⟩
  | succ n ih =>
    obtain ⟨b, u, hexec, hfifo, htrace, -, hflush, hs', h'⟩ := exec_srsp_ok h hs (by omega)
    obtain ⟨t, hrun, hend, ht, hrest⟩ := ih h' hs' (by omega)
    refine ⟨t, ?_, hend, ?_, ?_⟩
    · rw [List.replicate_succ, runOps_cons, hexec, andThen_next, hrun]
    · rw [ht, htrace, hfifo, List.take_succ_cons, List.map_cons, List.append_assoc]
      rfl
    · rw [hrest, hfifo, List.drop_succ_cons]

/-- Settles O24, by `runOps_srsp_ok`. -/
theorem flushSendsItsBudgetInOrder : Obligations.FlushSendsItsBudgetInOrder :=
  fun s hinv hs => runOps_srsp_ok s.flushRem (hinv.regs hs) hs rfl

/-- Settles O29: the failure changes neither the queue nor the flush condition, so the next POLL starts a
flush of the same count. -/
theorem failedSendIsRetriedByTheNextPoll : Obligations.FailedSendIsRetriedByTheNextPoll := by
  intro s hinv hs hf hc
  obtain ⟨b, hfail⟩ := exec_srsp_fail (hinv.regs hs) hs hf
  exact ⟨_, _, hfail, rfl, rfl, exec_poll_of_flushCond hs rfl hc, rfl, rfl⟩

/-! ### Ticks (R151, R154, R155) -/

/-- `n` ticks add `n` to since_rx, saturating once. -/
theorem runOps_ticks (n : Nat) {s : State} (hs : s.resetSeen = true) (hlt : s.sinceRx < 2 ^ s.cfg.tw) :
    runOps (List.replicate n .tick) s = .next { s with sinceRx := satW s.cfg.tw (s.sinceRx + n) } := by
  induction n generalizing s with
  | zero =>
    have hsat : satW s.cfg.tw s.sinceRx = s.sinceRx := Nat.min_eq_left (Nat.le_sub_one_of_lt hlt)
    simp [hsat]
  | succ n ih =>
    have hsat : satW s.cfg.tw (satW s.cfg.tw (s.sinceRx + 1) + n) = satW s.cfg.tw (s.sinceRx + (n + 1)) := by
      simp only [satW]
      omega
    rw [List.replicate_succ, runOps_cons, exec_tick hs, andThen_next,
      ih (s := { s with sinceRx := satW s.cfg.tw (s.sinceRx + 1) }) hs (satW_lt _ _), hsat]

/-- Settles O27: the first RXB clears since_rx and leaves a byte in the buffer, the ticks count the gap, and
the second RXB doubles it. -/
theorem steadyStreamSetsTimeoutToTwiceTheGap : Obligations.SteadyStreamSetsTimeoutToTwiceTheGap := by
  intro g d₁ d₂ s hinv hs
  have hcount := rxbEffect_count_pos (hinv.regs hs) d₁
  set t₁ := rxbEffect d₁ s with ht₁
  have hs₁ : t₁.resetSeen = true := by rw [ht₁, rxbEffect_eq]; exact hs
  have hcfg : t₁.cfg = s.cfg := by rw [ht₁, rxbEffect_eq]
  have hsince : t₁.sinceRx = 0 := by rw [ht₁, rxbEffect_eq]
  set t₂ : State := { t₁ with sinceRx := satW t₁.cfg.tw (t₁.sinceRx + g) }
  have hticks : runOps (List.replicate g .tick) t₁ = .next t₂ :=
    runOps_ticks g hs₁ (hsince ▸ Nat.two_pow_pos _)
  refine ⟨rxbEffect d₂ t₂, ?_, ?_⟩
  · rw [runOps_cons, exec_rxb hs, andThen_next, runOps_append, hticks, andThen_next, runOps_cons,
      exec_rxb (s := t₂) hs₁]
    rfl
  · have hne : t₂.isEmpty = false := decide_eq_false hcount.ne'
    rw [rxbEffect_eq, hne]
    show satW t₁.cfg.tw (2 * satW t₁.cfg.tw (t₁.sinceRx + g)) = _
    rw [hsince, hcfg]
    simp only [satW]
    omega

/-- Settles O28: after so many ticks since_rx has its largest value, which no timeout passes. -/
theorem silenceFlushesALoneByte : Obligations.SilenceFlushesALoneByte := by
  intro n s hinv hs hf hc hn
  have hreg := hinv.regs hs
  have hmax : satW s.cfg.tw (s.sinceRx + n) = 2 ^ s.cfg.tw - 1 := Nat.min_eq_right (by omega)
  have hticks := runOps_ticks n hs hreg.sinceRx_lt
  rw [hmax] at hticks
  have hdue : State.flushCond { s with sinceRx := 2 ^ s.cfg.tw - 1 } = true :=
    (State.flushCond_iff _).2 (.inl ⟨hc, Nat.le_sub_one_of_lt hreg.timeout_lt⟩)
  have hpoll := exec_poll_of_flushCond (s := { s with sinceRx := 2 ^ s.cfg.tw - 1 }) hs hf hdue
  refine ⟨{ s with sinceRx := 2 ^ s.cfg.tw - 1, flushRem := s.count, trace := s.trace ++ [.flush s.count] },
    ?_, rfl, rfl⟩
  rw [runOps_append, hticks, andThen_next, runOps_cons, hpoll]
  rfl

end Sys2Proof.Machine
end

section
/-!
RST, elaboration and the two invariants through every operation and every step (70_reset_and_hazards.md R230,
R231; 10_state.md section 1.1; R24, R29, R108, R109, R163).
-/

namespace Sys2Proof.Machine

/-! ### RST and elaboration -/

/-- Settles O35: RST has no enabling condition, and its meaning is the reset column and the probe. -/
theorem rstGivesTheResetColumnAndProbes : Obligations.RstGivesTheResetColumnAndProbes := fun _ => rfl

/-- Settles O36: the second RST finds every register at its reset value and the same program memory. -/
theorem rstTwiceIsRstOnce : Obligations.RstTwiceIsRstOnce := fun _ => ⟨_, _, rfl, rfl, rfl⟩

theorem elaborate_of_valid {c : Config} (h : c.valid = true) (u : State) :
    elaborate c u = .next (powerOn c u) := if_pos h

theorem elaborate_of_not_valid {c : Config} (h : ¬ c.valid = true) (u : State) :
    elaborate c u = .refused .configRefused := if_neg h

/-- The constraints of R5 and the address widths, as propositions. -/
theorem configValid_iff (c : Config) :
    c.valid = true ↔ 1 ≤ c.k ∧ 2 ≤ c.tw ∧ c.timeoutInit ≤ 2 ^ c.tw - 1 ∧ c.magicKey ≠ 0 ∧
      c.legacySlotAddr + 1 < c.modernSlotAddr ∧ c.modernSlotAddr < 2 ^ c.paw ∧ c.sigAddr < 2 ^ c.pgaw := by
  simp only [Config.valid, Bool.and_eq_true, decide_eq_true_eq, and_assoc]

/-- Settles O39, by `configValid_iff`. -/
theorem badParametersAreRefused : Obligations.BadParametersAreRefused := by
  intro c u
  refine ⟨fun hbad => elaborate_of_not_valid (fun hv => ?_) u, fun hk htw htimeout hmagic hslots hpaw hpgaw =>
    elaborate_of_valid ((configValid_iff c).2 ⟨hk, htw, htimeout, hmagic, hslots, hpaw, hpgaw⟩) u⟩
  obtain ⟨hk, htw, htimeout, hmagic, hslots, -, -⟩ := (configValid_iff c).1 hv
  rcases hbad with h | h | h | h | h
  · omega
  · omega
  · omega
  · exact hmagic h
  · omega

/-- The first RST of a block just built, over memories nothing has written (R231, R42). -/
theorem exec_rst_powerOn (c : Config) {u : State} (hpmem : u.pmem = []) (hprog : u.prog = [])
    (hinputs : u.inputs = []) : exec .rst (powerOn c u) = .next (State.resetFor c) := by
  obtain ⟨_, _, _, _, _, _, _, _, _, _, _, _, _, _, _, _, _, _⟩ := u
  cases hpmem
  cases hprog
  cases hinputs
  rfl

/-- Settles O37, by `exec_rst_powerOn`. -/
theorem resetStateIsTheFirstRst : Obligations.ResetStateIsTheFirstRst :=
  fun c u hv hpmem hprog hinputs =>
    ⟨powerOn c u, elaborate_of_valid hv u, rfl, exec_rst_powerOn c hpmem hprog hinputs⟩

/-- Equal pointers are an empty buffer. -/
theorem State.count_of_wrPtr_eq_rdPtr {s : State} (h : s.wrPtr = s.rdPtr) (hlt : s.rdPtr < 2 ^ s.cfg.pw) :
    s.count = 0 := by
  rw [State.count, h, wrapSubW_of_lt hlt hlt, if_pos le_rfl, Nat.sub_self]

theorem State.resetFor_count (c : Config) : (State.resetFor c).count = 0 :=
  State.count_of_wrPtr_eq_rdPtr rfl (Nat.two_pow_pos _)

/-- Settles O38: the registers by the definition, the flags from the count being 0 (R25). -/
theorem resetStateHoldsTheResetColumn : Obligations.ResetStateHoldsTheResetColumn := by
  intro c s
  have hcount : s.count = 0 := State.resetFor_count c
  have hhalf : s.halfExceeded = false := by simp [State.halfExceeded, hcount]
  have hdue : s.timeoutDue = false := by simp [State.timeoutDue, hcount]
  refine ⟨fun _ => rfl, rfl, rfl, rfl, rfl, rfl, rfl, rfl, rfl, rfl, rfl, rfl, rfl, s.isEmpty_iff.2 hcount,
    ?_, hhalf, hdue, ?_, rfl⟩
  · rw [s.isFull_eq_false_iff, hcount]
    exact (capacity_pos _).ne
  · rw [State.flushCond, hdue, hhalf]
    rfl

/-! ### The invariant of the machine -/

/-- Registers at their reset values meet the register invariant: the buffer is empty. -/
theorem State.RegInv.of_reset {s : State} (hstore : s.store = []) (hwr : s.wrPtr = 0) (hrd : s.rdPtr = 0)
    (hsince : s.sinceRx = 0) (htimeout : s.timeout < 2 ^ s.cfg.tw) (hflush : s.flushRem = 0)
    (hhs : s.hsState = .idle) : s.RegInv := by
  have hpos := Nat.two_pow_pos s.cfg.pw
  have hcount : s.count = 0 := State.count_of_wrPtr_eq_rdPtr (hwr.trans hrd.symm) (hrd ▸ hpos)
  refine ⟨hwr ▸ hpos, hrd ▸ hpos, hsince ▸ Nat.two_pow_pos _, htimeout, hcount ▸ Nat.zero_le _, by omega,
    by rw [hhs]; exact nofun, hstore ▸ List.Pairwise.nil, ?_, ?_⟩
  · simp [hstore]
  · intro j hj
    omega

/-- The handshake registers, persistence memory and the trace are no part of the register invariant but for
hs_state (R136). -/
theorem State.RegInv.with_handshake {s h : State} (hs : s.RegInv) (hh : h.hsState ≠ .cancelling) :
    (withHandshakeOf h s).RegInv := { hs with hsState_ne := hh }

/-- Every FIFO operation keeps the register invariant (R24, R29, R108). -/
theorem exec_fifo_regInv {i : Instr} (hi : isFifoOp i = true) {s t : State} (h : s.RegInv)
    (ht : exec i s = .next t) : t.RegInv := by
  cases i with
  | tick =>
    obtain ⟨-, ⟨⟩⟩ := (require_eq_next_iff _ _ _ _).1 ht
    exact State.RegInv.with_timing h (satW_lt _ _) h.timeout_lt s.trace
  | rxb d =>
    obtain ⟨-, ⟨⟩⟩ := (require_eq_next_iff _ _ _ _).1 ht
    exact rxbEffect_regInv h d
  | poll =>
    obtain ⟨-, ⟨⟩⟩ := (require_eq_next_iff _ _ _ _).1 ht
    exact pollEffect_regInv h
  | srsp ok =>
    obtain ⟨hs, hf⟩ := (enabled_srsp_iff ok s).1 (enabled_of_exec_next ht)
    cases ok with
    | false =>
      obtain ⟨b, hfail⟩ := exec_srsp_fail h hs hf
      obtain ⟨⟩ := hfail.symm.trans ht
      exact State.RegInv.with_budget h (Nat.zero_le _) _
    | true =>
      obtain ⟨b, u, hok, -, -, -, -, -, hu⟩ := exec_srsp_ok h hs hf
      obtain ⟨⟩ := hok.symm.trans ht
      exact hu
  | lenc => cases hi
  | ctrl => cases hi
  | rst => cases hi

/-- A host event leaves hs_state Idle or Armed, and persistence memory canonical (R134). -/
theorem exec_host_hsState {i : Instr} (hi : isHandshakeOp i = true) {s t : State} (ht : exec i s = .next t) :
    t.hsState ≠ .cancelling := by
  obtain ⟨arms, u, rfl, -⟩ := exec_host_cases hi ht
  exact armOrCancel_hsState_ne arms u

theorem armOrCancel_pmem_wf {s : State} (h : s.pmem.wf) (arms : Bool) : (armOrCancel arms s).pmem.wf := by
  cases arms
  · exact (cancel_pmem s).symm ▸ Memory.write16_wf h _ _ _
  · exact (arm_pmem s).symm ▸ Memory.write16_wf h _ _ _

theorem exec_host_pmem_wf {i : Instr} (hi : isHandshakeOp i = true) {s t : State} (h : s.pmem.wf)
    (ht : exec i s = .next t) : t.pmem.wf := by
  obtain ⟨arms, u, rfl, ⟨baud, par, stop2, dbits, -, rfl⟩ | ⟨dtr, rts, -, rfl⟩⟩ := exec_host_cases hi ht
  · exact armOrCancel_pmem_wf (s := lencLatch baud par stop2 dbits s) h arms
  · exact armOrCancel_pmem_wf (s := ctrlLatch dtr s) h arms

/-- A host event changes no FIFO state (R136). -/
theorem exec_host_fifo {i : Instr} (hi : isHandshakeOp i = true) {s t : State} (ht : exec i s = .next t) :
    t = withHandshakeOf t s := by
  obtain ⟨e, h, -⟩ := exec_handshake_next hi ht
  rw [h]
  rfl

theorem exec_rst_inv {s t : State} (h : s.Inv) (ht : exec .rst s = .next t) : t.Inv := by
  cases ht
  obtain ⟨-, -, htimeout, -⟩ := (configValid_iff _).1 h.cfg_valid
  have hlt : s.cfg.timeoutInit < 2 ^ s.cfg.tw := by
    have := Nat.two_pow_pos s.cfg.tw
    omega
  exact ⟨h.cfg_valid, h.pmem_wf, h.prog_wf, fun _ => State.RegInv.of_reset rfl rfl rfl rfl hlt rfl rfl⟩

/-- Every operation keeps the invariant of the machine. -/
theorem exec_inv {i : Instr} {s t : State} (h : s.Inv) (ht : exec i s = .next t) : t.Inv := by
  rcases instr_cases i with hf | hh | rfl
  · obtain ⟨ef, hframe, hcfg, hseen, hprog, -⟩ := exec_fifo_next hf ht
    exact ⟨hcfg ▸ h.cfg_valid, exec_fifo_pmem hf ht ▸ h.pmem_wf, hprog ▸ h.prog_wf,
      fun hs => exec_fifo_regInv hf (h.regs (hseen ▸ hs)) ht⟩
  · have hfifo := exec_host_fifo hh ht
    refine ⟨?_, exec_host_pmem_wf hh h.pmem_wf ht, ?_, fun hs => ?_⟩
    · rw [hfifo]; exact h.cfg_valid
    · rw [hfifo]; exact h.prog_wf
    · rw [hfifo] at hs ⊢
      exact State.RegInv.with_handshake (h.regs hs) (exec_host_hsState hh ht)
  · exact exec_rst_inv h ht

/-- Writes to the memories outside the block that keep their canonical form keep the invariant. -/
theorem State.Inv.with_memories {s : State} (h : s.Inv) {pmem prog : Memory} (hpmem : pmem.wf) (hprog : prog.wf) :
    State.Inv { s with pmem := pmem, prog := prog } :=
  ⟨h.cfg_valid, hpmem, hprog, fun hs => { h.regs hs with }⟩

theorem envStep_inv {e : EnvAction} {s t : State} (h : s.Inv) (ht : envStep e s = .next t) : t.Inv := by
  obtain ⟨a, v, rfl⟩ | ⟨a, b, rfl⟩ | ⟨a, v, rfl⟩ | hrst | rfl := envStep_next_cases ht
  · exact State.Inv.with_memories h (Memory.write16_wf h.pmem_wf _ _ _) h.prog_wf
  · exact State.Inv.with_memories h (Memory.set_wf h.pmem_wf _ _) h.prog_wf
  · exact State.Inv.with_memories h h.pmem_wf (Memory.write16_wf h.prog_wf _ _ _)
  · exact exec_rst_inv h hrst
  · exact h

/-- What a step that completes does: nothing, an operation, or an action of the environment, on the state
with the input taken. -/
theorem step_next_cases {s t : State} (h : step s = .next t) :
    t = s ∨ ∃ rest, (∃ i, exec i { s with inputs := rest } = .next t) ∨
      ∃ e, envStep e { s with inputs := rest } = .next t := by
  cases hinputs : s.inputs with
  | nil => exact .inl (Host.Outcome.next.inj (h.symm.trans (step_of_nil hinputs)))
  | cons input rest =>
    refine .inr ⟨rest, ?_⟩
    rw [step_of_cons hinputs] at h
    cases input with
    | env e => exact .inr ⟨e, h⟩
    | word w =>
      simp only [takeInput, runWord] at h
      split at h
      · cases h
      · exact .inl ⟨_, h⟩

/-- Every step keeps the invariant of the machine. -/
theorem step_inv {s t : State} (h : s.Inv) (ht : step s = .next t) : t.Inv := by
  obtain rfl | ⟨rest, ⟨i, hi⟩ | ⟨e, he⟩⟩ := step_next_cases ht
  · exact h
  · exact exec_inv (State.Inv.with_inputs h rest) hi
  · exact envStep_inv (State.Inv.with_inputs h rest) he

/-- Settles O41, by `step_inv`. -/
theorem stepKeepsTheInvariant : Obligations.StepKeepsTheInvariant := fun _ _ => step_inv

/-! ### No byte lost -/

/-- The event is no RST, no byte received and no byte sent: it leaves both tallies as they are. -/
def Event.keepsTallies : Event → Bool
  | .pgr _ _ | .rxOk _ | .txOk _ => false
  | .rxDrop _ | .txFail _ | .flush _ | .leFwd _ _ _ _ | .rt _ | .pmr _ _ | .pmw _ _ => true

theorem tallies_concat {e : Event} (he : e.keepsTallies = true) (t : List Event) :
    receivedSinceReset (t ++ [e]) = receivedSinceReset t ∧ sentSinceReset (t ++ [e]) = sentSinceReset t := by
  rw [receivedSinceReset_concat, sentSinceReset_concat]
  cases e <;> simp [Event.keepsTallies] at he ⊢

theorem tallies_append (t : List Event) {es : List Event} (h : ∀ e ∈ es, e.keepsTallies = true) :
    receivedSinceReset (t ++ es) = receivedSinceReset t ∧ sentSinceReset (t ++ es) = sentSinceReset t := by
  induction es using List.reverseRecOn with
  | nil => rw [List.append_nil]; exact ⟨rfl, rfl⟩
  | append_singleton es e ih =>
    obtain ⟨hr, hs⟩ := ih fun x hx => h x (List.mem_append_left _ hx)
    obtain ⟨hr', hs'⟩ := tallies_concat (h e (List.mem_append_right _ List.mem_cons_self)) (t ++ es)
    rw [← List.append_assoc, hr', hs']
    exact ⟨hr, hs⟩

/-- The queue the same and events that leave the tallies: no byte is lost. -/
theorem State.NoLoss.of_tallies_kept {s t : State} (h : s.NoLoss) (hs : t.resetSeen = true → s.resetSeen = true)
    (hfifo : t.fifo = s.fifo) {es : List Event} (htrace : t.trace = s.trace ++ es)
    (hes : ∀ e ∈ es, e.keepsTallies = true) : t.NoLoss := by
  intro hseen
  obtain ⟨hreceived, hsent⟩ := tallies_append s.trace hes
  rw [htrace, hreceived, hsent, hfifo]
  exact h (hs hseen)

/-- The events of arm and cancel say nothing of the FIFO. -/
theorem armOrCancel_trace (arms : Bool) (s : State) :
    ∃ es, (armOrCancel arms s).trace = s.trace ++ es ∧ ∀ e ∈ es, e.keepsTallies = true := by
  cases arms
  · exact ⟨_, (cancel_result s).trace, by simp [Event.keepsTallies]⟩
  · refine ⟨_, ((arm_result s).trace).trans (List.append_assoc _ _ _), fun e he => ?_⟩
    split at he <;> simp at he
    · rcases he with rfl | rfl | rfl <;> rfl
    · rcases he with rfl | rfl <;> rfl

/-- The events of a host event say nothing of the FIFO. -/
theorem exec_host_trace {i : Instr} (hi : isHandshakeOp i = true) {s t : State} (ht : exec i s = .next t) :
    ∃ es, t.trace = s.trace ++ es ∧ ∀ e ∈ es, e.keepsTallies = true := by
  obtain ⟨arms, u, rfl, ⟨baud, par, stop2, dbits, -, rfl⟩ | ⟨dtr, rts, -, rfl⟩⟩ := exec_host_cases hi ht
  · obtain ⟨es, htrace, hes⟩ := armOrCancel_trace arms (lencLatch baud par stop2 dbits s)
    exact ⟨.leFwd baud par stop2 dbits :: es, by simp [htrace], List.forall_mem_cons.2 ⟨rfl, hes⟩⟩
  · exact armOrCancel_trace arms (ctrlLatch dtr s)

/-- Every FIFO operation keeps the account: RXB adds to both sides at the end, SRSP ok moves the head of the
queue to the bytes sent (R109, R163). -/
theorem exec_fifo_noLoss {i : Instr} (hi : isFifoOp i = true) {s t : State} (h : s.RegInv) (hl : s.NoLoss)
    (ht : exec i s = .next t) : t.NoLoss := by
  cases i with
  | tick =>
    obtain ⟨-, ⟨⟩⟩ := (require_eq_next_iff _ _ _ _).1 ht
    exact hl
  | rxb d =>
    obtain ⟨-, ⟨⟩⟩ := (require_eq_next_iff _ _ _ _).1 ht
    have hfifo := rxbEffect_fifo h d
    have htrace : (rxbEffect d s).trace = s.trace ++ [if s.isFull then .rxDrop d else .rxOk d] := by
      rw [rxbEffect_eq]
    have hseen : (rxbEffect d s).resetSeen = s.resetSeen := by rw [rxbEffect_eq]
    cases hf : s.isFull with
    | true =>
      rw [hf] at hfifo htrace
      exact State.NoLoss.of_tallies_kept hl (hseen ▸ id) hfifo htrace (by simp [Event.keepsTallies])
    | false =>
      rw [hf] at hfifo htrace
      intro hs
      have hacc := hl (hseen ▸ hs)
      rw [htrace, hfifo]
      simp [receivedSinceReset_concat, sentSinceReset_concat, hacc]
  | poll =>
    obtain ⟨-, ⟨⟩⟩ := (require_eq_next_iff _ _ _ _).1 ht
    rw [pollEffect_eq]
    refine State.NoLoss.of_tallies_kept hl id rfl rfl fun e he => ?_
    split at he <;> simp at he
    rw [he]
    rfl
  | srsp ok =>
    obtain ⟨hs, hf⟩ := (enabled_srsp_iff ok s).1 (enabled_of_exec_next ht)
    cases ok with
    | false =>
      obtain ⟨b, hfail⟩ := exec_srsp_fail h hs hf
      obtain ⟨⟩ := hfail.symm.trans ht
      exact State.NoLoss.of_tallies_kept hl id rfl rfl (by simp [Event.keepsTallies])
    | true =>
      obtain ⟨b, u, hok, hfifo, htrace, -⟩ := exec_srsp_ok h hs hf
      obtain ⟨⟩ := hok.symm.trans ht
      intro _
      have hacc := hl hs
      rw [htrace, receivedSinceReset_concat, sentSinceReset_concat]
      simp [hacc, hfifo]
  | lenc => cases hi
  | ctrl => cases hi
  | rst => cases hi

/-- After an RST nothing has been received or sent, and the buffer is empty. -/
theorem exec_rst_noLoss {s t : State} (ht : exec .rst s = .next t) : t.NoLoss := by
  cases ht
  intro _
  have hcount : State.count { probe (resetRegisters s) with resetSeen := true } = 0 :=
    State.count_of_wrPtr_eq_rdPtr rfl (Nat.two_pow_pos _)
  have hfifo : State.fifo { probe (resetRegisters s) with resetSeen := true } = [] := by
    rw [State.fifo, hcount]
    rfl
  rw [hfifo]
  simp [receivedSinceReset_concat, sentSinceReset_concat]

theorem exec_noLoss {i : Instr} {s t : State} (h : s.Inv) (hl : s.NoLoss) (ht : exec i s = .next t) :
    t.NoLoss := by
  rcases instr_cases i with hf | hh | rfl
  · have hs : s.resetSeen = true := by
      have := enabled_of_exec_next ht
      cases i <;> simp_all [enabled, isFifoOp]
    exact exec_fifo_noLoss hf (h.regs hs) hl ht
  · obtain ⟨es, htrace, hes⟩ := exec_host_trace hh ht
    have hfifo := exec_host_fifo hh ht
    refine State.NoLoss.of_tallies_kept hl (fun hs => ?_) ?_ htrace hes
    · rw [hfifo] at hs; exact hs
    · rw [hfifo]; rfl
  · exact exec_rst_noLoss ht

theorem envStep_noLoss {e : EnvAction} {s t : State} (hl : s.NoLoss) (ht : envStep e s = .next t) :
    t.NoLoss := by
  obtain ⟨a, v, rfl⟩ | ⟨a, b, rfl⟩ | ⟨a, v, rfl⟩ | hrst | rfl := envStep_next_cases ht
  · exact hl
  · exact hl
  · exact hl
  · exact exec_rst_noLoss hrst
  · exact hl

/-- Every step keeps: received = sent, then still buffered. -/
theorem step_noLoss {s t : State} (h : s.Inv) (hl : s.NoLoss) (ht : step s = .next t) : t.NoLoss := by
  obtain rfl | ⟨rest, ⟨i, hi⟩ | ⟨e, he⟩⟩ := step_next_cases ht
  · exact hl
  · exact exec_noLoss (State.Inv.with_inputs h rest) hl hi
  · exact envStep_noLoss (s := { s with inputs := rest }) hl he

/-- Settles O25, by `step_noLoss`. -/
theorem stepKeepsNoByteLost : Obligations.StepKeepsNoByteLost := fun _ _ => step_noLoss

/-- What every step keeps, every run keeps. -/
theorem run_keeps {P : State → Prop} (hstep : ∀ {s t : State}, P s → step s = .next t → P t) (n : Nat)
    {s t : State} (hs : P s) (h : Sys2Proof.core.run n s = .next t) : P t := by
  induction n generalizing s with
  | zero => cases h; exact hs
  | succ n ih =>
    simp only [Host.Core.run] at h
    split at h
    · next u hu => exact ih (hstep hs hu) h
    · cases h
    · cases h

/-- Settles O26: the two invariants hold at the end of the run (`run_keeps`), and there the bytes received
begin with the bytes sent. -/
theorem sentBytesAreTheFirstReceived : Obligations.SentBytesAreTheFirstReceived := by
  intro n s t hinv hl hrun hs
  have hkept : t.Inv ∧ t.NoLoss :=
    run_keeps (P := fun u => u.Inv ∧ u.NoLoss) (fun h hu => ⟨step_inv h.1 hu, step_noLoss h.1 h.2 hu⟩) n
      ⟨hinv, hl⟩ hrun
  rw [hkept.2 hs]
  exact List.prefix_append _ _

/-! ### The state after reset meets both -/

/-- Before the first RST the invariants ask nothing of the registers (R231). -/
theorem powerOn_inv {c : Config} (hc : c.valid = true) {u : State} (hpmem : u.pmem = [])
    (hprog : u.prog = []) : (powerOn c u).Inv :=
  ⟨hc, hpmem ▸ List.Pairwise.nil, hprog ▸ List.Pairwise.nil, nofun⟩

theorem resetFor_inv_noLoss {c : Config} (hc : c.valid = true) :
    (State.resetFor c).Inv ∧ (State.resetFor c).NoLoss := by
  have hrst := exec_rst_powerOn c (u := State.resetFor c) rfl rfl rfl
  exact ⟨exec_rst_inv (powerOn_inv hc rfl rfl) hrst, exec_rst_noLoss hrst⟩

/-- The free build keeps the constraints of R5 (log 4). -/
theorem unspecified_valid : Config.unspecified.valid = true := by
  refine (configValid_iff _).2 ⟨Nat.succ_pos _, by decide, Nat.zero_le _, ?_, ?_, ?_, ?_⟩
  · intro h
    have hnat : (Config.freeMagicPred.val + 1) % 2 ^ 16 = 0 := congrArg BitVec.toNat h
    have hlt := Config.freeMagicPred.isLt
    omega
  · show Config.freeLegacySlotAddr + 1 < Config.freeLegacySlotAddr + 2 + Config.freeSlotGap
    omega
  · exact Nat.lt_log2_self.trans_le (Nat.pow_le_pow_right two_pos (Nat.le_add_right _ _))
  · exact Nat.lt_log2_self.trans_le (Nat.pow_le_pow_right two_pos (Nat.le_add_right _ _))

/-- Settles O40: the state after reset is the first RST of a block just built, and RST gives both invariants;
the parameters of the free build are valid. -/
theorem resetStateMeetsTheInvariant : Obligations.ResetStateMeetsTheInvariant :=
  ⟨(resetFor_inv_noLoss unspecified_valid).1, (resetFor_inv_noLoss unspecified_valid).2,
    fun _ => resetFor_inv_noLoss⟩

end Sys2Proof.Machine
end

section
/-!
Whole-machine rules: what commutes (41_handshake.md R136), which operation writes which field (10_state.md
section 1.1), the trace (R40), and the end of a countdown (41_handshake.md R135).
-/

namespace Sys2Proof.Machine

/-! ### A host event and a FIFO operation in either order (R136) -/

theorem runOps_singleton (i : Instr) (s : State) : runOps [i] s = exec i s := by
  rw [runOps_cons]
  cases exec i s <;> rfl

theorem runOps_pair_eq_next_iff (i j : Instr) (s t : State) :
    runOps [i, j] s = .next t ↔ ∃ u, exec i s = .next u ∧ exec j u = .next t := by
  simp only [runOps_cons i, andThen_eq_next_iff, runOps_singleton]

/-- Where each of the two completes alone, both orders complete, with the one's handshake state and the
other's FIFO state, and the events of each in the order run. -/
theorem runOps_host_fifo {h f : Instr} (hh : isHandshakeOp h = true) (hf : isFifoOp f = true)
    {s sh sf : State} (hsh : exec h s = .next sh) (hsf : exec f s = .next sf) :
    ∃ eh ef, sh.trace = s.trace ++ eh ∧ sf.trace = s.trace ++ ef ∧
      runOps [h, f] s = .next (withHandshakeOf { sh with trace := s.trace ++ eh ++ ef } sf) ∧
      runOps [f, h] s = .next (withHandshakeOf { sh with trace := s.trace ++ ef ++ eh } sf) := by
  obtain ⟨ef, hframe, hcfg, hseen, -, -, hfifo⟩ := exec_fifo_next hf hsf
  obtain ⟨eh, hsh_eq, hhost⟩ := exec_handshake_next hh hsh
  have hsh_trace : sh.trace = s.trace ++ eh := congrArg State.trace hsh_eq
  have hsh_frame : withHandshakeOf sh s = sh := (exec_host_fifo hh hsh).symm
  have hf_after : exec f sh = .next (withHandshakeOf { sh with trace := s.trace ++ eh ++ ef } sf) := by
    rw [← hsh_trace]
    exact hsh_frame ▸ hfifo sh
  have hh_after : exec h sf = .next (withHandshakeOf { sh with trace := s.trace ++ ef ++ eh } sf) :=
    hframe ▸ hhost sf (s.trace ++ ef) hcfg hseen
  exact ⟨eh, ef, hsh_trace, (congrArg State.trace hframe).symm,
    (runOps_pair_eq_next_iff _ _ _ _).2 ⟨sh, hsh, hf_after⟩,
    (runOps_pair_eq_next_iff _ _ _ _).2 ⟨sf, hsf, hh_after⟩⟩

/-- A FIFO operation that completes after a host event completes without it. -/
theorem exec_fifo_of_after_host {h f : Instr} (hh : isHandshakeOp h = true) (hf : isFifoOp f = true)
    {s sh t : State} (hsh : exec h s = .next sh) (ht : exec f sh = .next t) : ∃ sf, exec f s = .next sf := by
  obtain ⟨ef, -, -, -, -, -, hfifo⟩ := exec_fifo_next hf ht
  have hback : withHandshakeOf s sh = s := by rw [exec_host_fifo hh hsh]; rfl
  exact ⟨_, hback ▸ hfifo s⟩

/-- A host event that completes after a FIFO operation completes without it. -/
theorem exec_host_of_after_fifo {h f : Instr} (hh : isHandshakeOp h = true) (hf : isFifoOp f = true)
    {s sf u : State} (hsf : exec f s = .next sf) (hu : exec h sf = .next u) : ∃ sh, exec h s = .next sh := by
  obtain ⟨ef, hframe, hcfg, hseen, -⟩ := exec_fifo_next hf hsf
  obtain ⟨eh, -, hhost⟩ := exec_handshake_next hh hu
  have hback : withHandshakeOf { sf with trace := s.trace } s = s := by rw [← hframe]; rfl
  exact ⟨_, hback ▸ hhost s s.trace hcfg.symm hseen.symm⟩

/-- Settles O34: either order completes where both operations complete alone, and then `runOps_host_fifo`
gives both results. -/
theorem handshakeCommutesWithFifo : Obligations.HandshakeCommutesWithFifo := by
  intro h f s hmatch fmatch
  have hh : isHandshakeOp h = true := by cases h <;> simp_all [isHandshakeOp]
  have hf : isFifoOp f = true := by cases f <;> simp_all [isFifoOp]
  have host_first {t : State} (ht : runOps [h, f] s = .next t) :
      ∃ sh sf, exec h s = .next sh ∧ exec f s = .next sf := by
    obtain ⟨sh, hsh, hrest⟩ := (runOps_pair_eq_next_iff _ _ _ _).1 ht
    obtain ⟨sf, hsf⟩ := exec_fifo_of_after_host hh hf hsh hrest
    exact ⟨sh, sf, hsh, hsf⟩
  have fifo_first {u : State} (hu : runOps [f, h] s = .next u) :
      ∃ sh sf, exec h s = .next sh ∧ exec f s = .next sf := by
    obtain ⟨sf, hsf, hrest⟩ := (runOps_pair_eq_next_iff _ _ _ _).1 hu
    obtain ⟨sh, hsh⟩ := exec_host_of_after_fifo hh hf hsf hrest
    exact ⟨sh, sf, hsh, hsf⟩
  refine ⟨⟨fun ⟨t, ht⟩ => ?_, fun ⟨u, hu⟩ => ?_⟩, fun t u ht hu => ?_⟩
  · obtain ⟨sh, sf, hsh, hsf⟩ := host_first ht
    obtain ⟨_, _, _, _, -, hrun⟩ := runOps_host_fifo hh hf hsh hsf
    exact ⟨_, hrun⟩
  · obtain ⟨sh, sf, hsh, hsf⟩ := fifo_first hu
    obtain ⟨_, _, _, _, hrun, -⟩ := runOps_host_fifo hh hf hsh hsf
    exact ⟨_, hrun⟩
  · obtain ⟨sh, sf, hsh, hsf⟩ := host_first ht
    obtain ⟨eh, ef, hsh_trace, hsf_trace, hrun₁, hrun₂⟩ := runOps_host_fifo hh hf hsh hsf
    obtain ⟨⟩ := hrun₁.symm.trans ht
    obtain ⟨⟩ := hrun₂.symm.trans hu
    exact ⟨rfl, sh, sf, eh, ef, hsh, hsh_trace, hsf, hsf_trace, rfl, rfl⟩

/-! ### Which operation writes which field (10_state.md section 1.1) -/

/-- Only a fresh arm with the legacy slot writes the backup (R127, R128). -/
theorem fresh_of_armOrCancel_backup (arms : Bool) {s : State} (h : (armOrCancel arms s).backup ≠ s.backup) :
    s.hsState = .idle ∧ s.slotSel = .legacy := by
  by_contra hfresh
  cases arms
  · exact h rfl
  · exact h ((arm_result s).backup.trans (if_neg hfresh))

/-- Settles O42: each operation in closed form, field by field. -/
theorem onlyItsWritersChangeAField : Obligations.OnlyItsWritersChangeAField := by
  intro i s t h
  cases i with
  | tick =>
    obtain ⟨-, ⟨⟩⟩ := (require_eq_next_iff _ _ _ _).1 h
    simp
  | rxb d =>
    obtain ⟨-, ⟨⟩⟩ := (require_eq_next_iff _ _ _ _).1 h
    simp [rxbEffect_eq]
  | poll =>
    obtain ⟨-, ⟨⟩⟩ := (require_eq_next_iff _ _ _ _).1 h
    simp [pollEffect_eq]
  | srsp ok =>
    obtain ⟨-, b, -, rfl⟩ := (execSrsp_eq_next_iff ok s t).1 h
    cases ok <;> simp
  | lenc baud par stop2 dbits =>
    obtain ⟨-, ⟨⟩⟩ := (require_eq_next_iff _ _ _ _).1 h
    have hbackup := fresh_of_armOrCancel_backup (lencLatch baud par stop2 dbits s).lencArms
      (s := lencLatch baud par stop2 dbits s)
    simpa [lencEffect] using hbackup
  | ctrl dtr rts =>
    obtain ⟨-, ⟨⟩⟩ := (require_eq_next_iff _ _ _ _).1 h
    have hbackup := fresh_of_armOrCancel_backup (ctrlLatch dtr s).armCond (s := ctrlLatch dtr s)
    simpa [ctrlEffect] using hbackup
  | rst =>
    cases h
    simp

/-! ### The trace (R40) -/

/-- An operation adds events to the trace and rewrites none, and changes no parameter. -/
theorem exec_trace_cfg {i : Instr} {s t : State} (h : exec i s = .next t) :
    s.trace <+: t.trace ∧ t.cfg = s.cfg := by
  rcases instr_cases i with hf | hh | rfl
  · obtain ⟨ef, hframe, hcfg, -⟩ := exec_fifo_next hf h
    exact ⟨⟨ef, congrArg State.trace hframe⟩, hcfg⟩
  · obtain ⟨es, htrace, -⟩ := exec_host_trace hh h
    refine ⟨⟨es, htrace.symm⟩, ?_⟩
    rw [exec_host_fifo hh h]
    rfl
  · cases h
    exact ⟨List.prefix_append _ _, rfl⟩

/-- Settles O44: an operation adds to the trace (`exec_trace_cfg`), an action of the environment leaves it or
is an RST. -/
theorem traceOnlyGrowsAndParametersStay : Obligations.TraceOnlyGrowsAndParametersStay := by
  intro s t h
  obtain rfl | ⟨rest, ⟨i, hi⟩ | ⟨e, he⟩⟩ := step_next_cases h
  · exact ⟨List.prefix_rfl, rfl⟩
  · exact exec_trace_cfg (s := { s with inputs := rest }) hi
  · obtain ⟨a, v, rfl⟩ | ⟨a, b, rfl⟩ | ⟨a, v, rfl⟩ | hrst | rfl := envStep_next_cases he
    · exact ⟨List.prefix_rfl, rfl⟩
    · exact ⟨List.prefix_rfl, rfl⟩
    · exact ⟨List.prefix_rfl, rfl⟩
    · exact exec_trace_cfg (s := { s with inputs := rest }) hrst
    · exact ⟨List.prefix_rfl, rfl⟩

/-! ### The end of a countdown (R135) -/

theorem countdownAfter_concat (t : List Event) (e : Event) :
    countdownAfter (t ++ [e]) = match e with | .rt c => c.countdown | _ => countdownAfter t := by
  rw [countdownAfter, List.foldl_append]
  cases e <;> rfl

/-- The last command wins: events after it that are no command do not change the countdown (R128). -/
theorem countdownAfter_last_command (cmd : TimerCmd) (before after : List Event) (h : ∀ c, .rt c ∉ after) :
    countdownAfter (before ++ .rt cmd :: after) = cmd.countdown := by
  induction after using List.reverseRecOn with
  | nil => rw [countdownAfter_concat]
  | append_singleton es e ih =>
    have hes : countdownAfter (before ++ .rt cmd :: es) = cmd.countdown :=
      ih fun c hc => h c (List.mem_append_left _ hc)
    rw [← List.cons_append, ← List.append_assoc, countdownAfter_concat, ← hes]
    cases e with
    | rt c => exact absurd (List.mem_append_right _ List.mem_cons_self) (h c)
    | _ => rfl

/-- Settles O50, by `countdownAfter_last_command`: the last command is the countdown that ends. -/
theorem countdownEndReachesTheBlockAsRst : Obligations.CountdownEndReachesTheBlockAsRst := by
  intro cmd before after s htrace hafter
  have hlast : countdownAfter s.trace = cmd.countdown :=
    htrace ▸ countdownAfter_last_command cmd before after hafter
  simp only [envStep, countdownEnd, hlast]
  cases cmd <;> rfl

end Sys2Proof.Machine
end

section
/-!
The cycle level as a run of operations (30_encoding.md R84 to R88): a cycle with rst low is the FIFO
operations it accepts and then an accepted host event, begun after the work an earlier cycle left; a cycle
with rst high is an RST.
-/

namespace Sys2Proof.Machine

/-! ### Runs of FIFO operations -/

theorem isFifoOp_of_mem_fifoOps {p : PortsIn} {s : State} {i : Instr} (h : i ∈ p.fifoOps s) :
    isFifoOp i = true := by
  simp only [PortsIn.fifoOps, List.mem_append] at h
  rcases h with (h | h) | h
  · split at h <;> simp at h
    rw [h]; rfl
  · split at h <;> split at h <;> simp at h <;> rw [h] <;> rfl
  · split at h <;> simp at h
    rw [h]; rfl

/-- A run of operations keeps the invariant of the machine. -/
theorem runOps_inv (is : List Instr) {s t : State} (h : s.Inv) (ht : runOps is s = .next t) : t.Inv := by
  induction is generalizing s with
  | nil => cases ht; exact h
  | cons i is ih =>
    obtain ⟨u, hu, hrest⟩ := (andThen_eq_next_iff _ _ _).1 ht
    exact ih (exec_inv h hu) hrest

/-- FIFO operations add events and leave the handshake as it was (R136). -/
theorem runOps_fifo_next {is : List Instr} (his : ∀ i ∈ is, isFifoOp i = true) {s t : State}
    (ht : runOps is s = .next t) :
    ∃ e, withHandshakeOf { s with trace := s.trace ++ e } t = t ∧ t.cfg = s.cfg := by
  induction is generalizing s with
  | nil => cases ht; exact ⟨[], by rw [List.append_nil]; rfl, rfl⟩
  | cons i is ih =>
    obtain ⟨u, hu, hrest⟩ := (andThen_eq_next_iff _ _ _).1 ht
    obtain ⟨e₁, hframe₁, hcfg₁, -⟩ := exec_fifo_next (his i List.mem_cons_self) hu
    obtain ⟨e₂, hframe₂, hcfg₂⟩ := ih (fun j hj => his j (List.mem_cons_of_mem _ hj)) hrest
    refine ⟨e₁ ++ e₂, ?_, hcfg₂.trans hcfg₁⟩
    rw [← List.append_assoc, ← hframe₂, ← hframe₁]
    rfl

/-- The tick of a cycle moves since_rx within its width, and nothing else. -/
theorem runOps_tick_if {s : State} (hs : s.resetSeen = true) (valid : Bool) :
    ∃ n, (s.sinceRx < 2 ^ s.cfg.tw → n < 2 ^ s.cfg.tw) ∧
      runOps (if valid = true then [.tick] else []) s = .next { s with sinceRx := n } := by
  cases valid with
  | false => exact ⟨s.sinceRx, id, rfl⟩
  | true =>
    refine ⟨satW s.cfg.tw (s.sinceRx + 1), fun _ => satW_lt _ _, ?_⟩
    simp only [if_true, runOps_cons, exec_tick hs]
    rfl

/-- The consumer operation of a cycle completes, where a send outstanding has a byte. -/
theorem runOps_consumer (p : PortsIn) {s : State} (hs : s.resetSeen = true)
    (hpeek : 0 < s.flushRem → ∃ b, fifoPeek s = .ok b) :
    ∃ t, t.resetSeen = true ∧
      runOps (if 0 < s.flushRem then (if p.txDone = true then [.srsp p.txOk] else [])
        else (if p.pollValid = true then [.poll] else [])) s = .next t := by
  split_ifs with hf hv hv
  · obtain ⟨b, hb⟩ := hpeek hf
    have hsrsp := execSrsp_of_peek (enabled_srsp hs hf p.txOk) hb
    exact ⟨_, by exact hs, (runOps_singleton _ s).trans hsrsp⟩
  · exact ⟨s, hs, rfl⟩
  · refine ⟨pollEffect s, ?_, (runOps_singleton _ s).trans (exec_poll hs (Nat.eq_zero_of_not_pos hf))⟩
    rw [pollEffect_eq]
    exact hs
  · exact ⟨s, hs, rfl⟩

/-- The FIFO operations a cycle accepts complete, each in its turn, where a send outstanding has a byte. -/
theorem runOps_fifoOps (p : PortsIn) {s : State} (hs : s.resetSeen = true)
    (hpeek : 0 < s.flushRem → ∃ b, fifoPeek s = .ok b) : ∃ t, runOps (p.fifoOps s) s = .next t := by
  obtain ⟨n, -, htick⟩ := runOps_tick_if hs p.tick
  obtain ⟨u, hu, hrun⟩ := runOps_consumer p (s := { s with sinceRx := n }) hs hpeek
  rw [PortsIn.fifoOps, runOps_append, runOps_append, htick, andThen_next, hrun, andThen_next]
  split
  · exact ⟨_, (runOps_singleton _ u).trans (exec_rxb hu p.rxData)⟩
  · exact ⟨u, rfl⟩

theorem runOps_fifoOps_of_inv (p : PortsIn) {s : State} (h : s.Inv) (hs : s.resetSeen = true) :
    ∃ t, runOps (p.fifoOps s) s = .next t ∧ t.Inv ∧ t.resetSeen = true := by
  have hreg := h.regs hs
  obtain ⟨t, ht⟩ := runOps_fifoOps p hs fun hf =>
    (fifoPeek_of_regInv hreg (hf.trans_le hreg.flushRem_le)).imp fun _ hb => hb.2
  exact ⟨t, ht, runOps_inv _ h ht,
    (runOps_fifo_resetSeen (fun _ hi => isFifoOp_of_mem_fifoOps hi) ht).trans hs⟩

/-! ### A cycle with rst low -/

/-- After the first reset a cycle with rst low is the FIFO operations it accepts, from where it begins, and
then the first cycle of an accepted host event. -/
theorem cycle_of_runOps {p : PortsIn} {c : CycleState} {s : State} (hp : p.rst = false)
    (hs : c.s.resetSeen = true) (h : runOps (p.fifoOps c.s) c.begun = .next s) :
    cycle p c = .next { s := (hostPart p c s).1, phase := (hostPart p c s).2, probeDue := false } := by
  have hfifo : fifoPart p c.begun = .next s := by
    rw [fifoPart_eq_runOps p ((begun_resetSeen c).trans hs), fifoOps_begun, h]
  rw [cycle, hp, hfifo]
  rfl

theorem hostPart_of_not_accepted {p : PortsIn} {c : CycleState} (h : (p.evValid && c.evReady) = false)
    (s : State) : hostPart p c s = (s, .none) := by
  rw [hostPart, h]
  rfl

/-- A cycle with rst low that accepts no host event ends on the state its FIFO operations leave. -/
theorem cycle_of_runOps_no_event {p : PortsIn} {c : CycleState} {s : State} (hp : p.rst = false)
    (hs : c.s.resetSeen = true) (hno : (p.evValid && c.evReady) = false)
    (h : runOps (p.fifoOps c.s) c.begun = .next s) :
    cycle p c = .next { s := s, phase := .none, probeDue := false } := by
  rw [cycle_of_runOps hp hs h, hostPart_of_not_accepted hno]

/-- A cycle with rst low that accepts a host event ends between its two halves. -/
theorem cycle_of_runOps_event {p : PortsIn} {c : CycleState} {s : State} (hp : p.rst = false)
    (hs : c.s.resetSeen = true) (hev : (p.evValid && c.evReady) = true)
    (h : runOps (p.fifoOps c.s) c.begun = .next s) :
    cycle p c = .next { s := (hostFirst p s).1, phase := (hostFirst p s).2, probeDue := false } := by
  rw [cycle_of_runOps hp hs h, hostPart, if_pos hev]

/-- The first cycle of a host event leaves the FIFO state, and a second cycle to come. -/
theorem hostFirst_cases (p : PortsIn) (s : State) :
    hostArms p s = true ∧ hostFirst p s = (armCapture (hostLatch p s), .armSecond) ∨
      hostArms p s = false ∧ hostFirst p s = (cancelBegin (hostLatch p s), .cancelSecond) := by
  unfold hostFirst
  cases hostArms p s
  · exact .inr ⟨rfl, rfl⟩
  · exact .inl ⟨rfl, rfl⟩

theorem hostFirst_phase_ne (p : PortsIn) (s : State) : (hostFirst p s).2 ≠ .none := by
  rcases hostFirst_cases p s with ⟨-, h⟩ | ⟨-, h⟩ <;> rw [h] <;> exact nofun

/-- In the second cycle of a host event ev_ready is low (R87). -/
theorem evReady_after_hostFirst (p : PortsIn) (s : State) (due : Bool) :
    CycleState.evReady { s := (hostFirst p s).1, phase := (hostFirst p s).2, probeDue := due } = false := by
  simp [CycleState.evReady, hostFirst_phase_ne p s]

/-- The whole of a host event is the operation its port presents: what its first cycle leaves, once done, is
what LENC or CTRL gives (R87). -/
theorem exec_hostOp_eq_hostDone (p : PortsIn) {s : State} (hs : s.resetSeen = true)
    (hh : s.hsState ≠ .cancelling) (due : Bool) :
    exec p.hostOp s = .next
      (CycleState.hostDone { s := (hostFirst p s).1, phase := (hostFirst p s).2, probeDue := due }) := by
  rw [hostFirst_hostDone, exec_hostOp p hs (s.handshakeReady_iff.2 hh)]

theorem isHandshakeOp_hostOp (p : PortsIn) : isHandshakeOp p.hostOp = true := by
  unfold PortsIn.hostOp
  split <;> rfl

theorem hostFirst_resetSeen (p : PortsIn) {s : State} (hs : s.resetSeen = true)
    (hh : s.hsState ≠ .cancelling) : (hostFirst p s).1.resetSeen = true := by
  have hdone := exec_host_fifo (isHandshakeOp_hostOp p) (exec_hostOp_eq_hostDone p hs hh false)
  have hbegun := begun_resetSeen { s := (hostFirst p s).1, phase := (hostFirst p s).2, probeDue := false }
  exact hbegun.symm.trans ((congrArg State.resetSeen hdone).trans hs)

/-! ### A cycle with rst high -/

theorem cycle_of_rst {p : PortsIn} (hp : p.rst = true) (c : CycleState) : cycle p c = .next (resetCycle c) :=
  if_pos hp

/-- A reset cycle with its probe done is one RST (R88). -/
theorem exec_rst_hostDone (c : CycleState) : exec .rst c.hostDone = .next (resetCycle c).begun := rfl

/-- A further reset cycle belongs to the same RST (R88). -/
theorem resetCycle_resetCycle (c : CycleState) : resetCycle (resetCycle c) = resetCycle c := rfl

theorem evReady_resetCycle (c : CycleState) : (resetCycle c).evReady = false := rfl

theorem fifoOps_quiet (s : State) : PortsIn.quiet.fifoOps s = [] := by
  simp [PortsIn.fifoOps, PortsIn.quiet]

/-- The probe cycle: the operations it accepts follow RST, and they complete, for the buffer is empty and no
flush is in progress. -/
theorem cycle_after_resetCycle {p : PortsIn} (hp : p.rst = false) (c : CycleState) :
    ∃ t, cycle p (resetCycle c) = .next { s := t, phase := .none, probeDue := false } ∧
      runOps (.rst :: p.fifoOps (resetCycle c).s) c.hostDone = .next t := by
  obtain ⟨t, ht⟩ := runOps_fifoOps p (s := (resetCycle c).begun) rfl fun hf => absurd hf (lt_irrefl 0)
  rw [fifoOps_begun] at ht
  refine ⟨t, cycle_of_runOps_no_event hp rfl (Bool.and_false _) ht, ?_⟩
  rw [runOps_cons, exec_rst_hostDone, andThen_next, ht]

/-- Settles O55, by `cycle_after_resetCycle`. -/
theorem fifoOperationsInTheProbeCycle : Obligations.FifoOperationsInTheProbeCycle := by
  intro r p c hr hp
  obtain ⟨t, hcycle, hrun⟩ := cycle_after_resetCycle hp c
  exact ⟨resetCycle c, t, cycle_of_rst hr c, evReady_resetCycle c, hcycle, hrun⟩

/-- Settles O56: further reset cycles change nothing (`resetCycle_resetCycle`), and a quiet probe cycle ends
the RST. -/
theorem resetCyclesAmountToRst : Obligations.ResetCyclesAmountToRst := by
  intro p c hp
  refine ⟨resetCycle c, (resetCycle c).begun, cycle_of_rst hp c,
    (cycle_of_rst hp _).trans (congrArg _ (resetCycle_resetCycle c)), evReady_resetCycle c, ?_,
    exec_rst_hostDone c⟩
  exact cycle_of_runOps_no_event rfl rfl rfl (by rw [fifoOps_quiet]; rfl)

/-! ### Every cycle is its operations in order -/

/-- The invariant of a cycle state with no probe due, from that of the state it comes to. -/
theorem CycleState.Inv.of_begun {c : CycleState} (h : c.begun.Inv) (hs : c.begun.resetSeen = true)
    (hdue : c.probeDue = false) : c.Inv :=
  ⟨h, (begun_resetSeen c).symm.trans hs, fun hd => nomatch hdue.symm.trans hd⟩

/-- A cycle with rst high: RST on its first, nothing more on a further one (R88). -/
theorem cycle_reset_refines {c : CycleState} (h : c.Inv) :
    (resetCycle c).Inv ∧
      runOps (if c.probeDue then [] else [.rst]) c.begun = .next (resetCycle c).begun := by
  cases hdue : c.probeDue with
  | true => rw [h.probeDue hdue]; exact ⟨h, rfl⟩
  | false =>
    have hbegun : c.begun = c.hostDone := by rw [CycleState.begun, hdue]; rfl
    have hrst : exec .rst c.begun = .next (resetCycle c).begun := hbegun ▸ exec_rst_hostDone c
    refine ⟨⟨exec_rst_inv h.begun_inv hrst, rfl, fun _ => resetCycle_resetCycle c⟩, ?_⟩
    simp only [Bool.false_eq_true, if_false, runOps_cons, hrst]
    rfl

/-- A cycle with rst low: the FIFO operations, and then the host event where one is accepted. -/
theorem cycle_refines {p : PortsIn} {c : CycleState} (h : c.Inv) (hp : p.rst = false) :
    ∃ c', cycle p c = .next c' ∧ c'.Inv ∧
      runOps (p.fifoOps c.s ++ (if p.evValid && c.evReady then [p.hostOp] else [])) c.begun = .next c'.begun ∧
      (p.evValid = false →
        c'.phase = .none ∧ c'.probeDue = false ∧ runOps (p.fifoOps c.s) c.begun = .next c'.s) := by
  obtain ⟨s, hrun, hinv, hs⟩ := runOps_fifoOps_of_inv p h.begun_inv ((begun_resetSeen c).trans h.resetSeen)
  rw [fifoOps_begun] at hrun
  cases hev : p.evValid && c.evReady with
  | false =>
    refine ⟨_, cycle_of_runOps_no_event hp h.resetSeen hev hrun, CycleState.Inv.of_begun hinv hs rfl, ?_,
      fun _ => ⟨rfl, rfl, hrun⟩⟩
    simpa using hrun
  | true =>
    have hh := (hinv.regs hs).hsState_ne
    have hhost := exec_hostOp_eq_hostDone p hs hh false
    have hdone := exec_host_fifo (isHandshakeOp_hostOp p) hhost
    refine ⟨_, cycle_of_runOps_event hp h.resetSeen hev hrun,
      CycleState.Inv.of_begun (exec_inv hinv hhost) ((congrArg State.resetSeen hdone).trans hs) rfl, ?_,
      fun hno => ?_⟩
    · rw [runOps_append, hrun, andThen_next, if_pos rfl, runOps_cons, hhost]
      rfl
    · simp [hno] at hev

/-- Settles O51: `cycle_reset_refines` with rst high, `cycle_refines` with rst low. -/
theorem cycleIsItsOperationsInOrder : Obligations.CycleIsItsOperationsInOrder := by
  intro p c h
  cases hp : p.rst with
  | true =>
    obtain ⟨hinv, hrun⟩ := cycle_reset_refines h
    refine ⟨resetCycle c, cycle_of_rst hp c, hinv, ?_, nofun⟩
    rw [CycleState.operations, if_pos hp]
    exact hrun
  | false =>
    obtain ⟨c', hcycle, hinv, hrun, hquiet⟩ := cycle_refines h hp
    refine ⟨c', hcycle, hinv, ?_, fun _ => hquiet⟩
    rw [CycleState.operations, hp]
    exact hrun

/-! ### The outputs of a full buffer -/

/-- Settles O52: TICK keeps the buffer full, the SRSP takes one byte, and the RXB of the same cycle sees the
room. -/
theorem fullBufferAcceptsAfterSameCycleRemoval : Obligations.FullBufferAcceptsAfterSameCycleRemoval := by
  intro p c hinv hs hphase hdue hp hfull hf hdone hok hrx
  have hreg := hinv.regs hs
  have hbegun : c.begun = c.s := by rw [CycleState.begun, hdue, CycleState.hostDone, hphase]; rfl
  obtain ⟨n, hn, htick⟩ := runOps_tick_if hs p.tick
  set u : State := { c.s with sinceRx := n }
  have hreg' : u.RegInv := State.RegInv.with_timing hreg (hn hreg.sinceRx_lt) hreg.timeout_lt c.s.trace
  obtain ⟨b, v, hsrsp, -, -, hcount, -, hv, -⟩ := exec_srsp_ok hreg' hs hf
  have hconsumer : consumerPart p u = .next v := by
    rw [consumerPart, if_pos ((State.busy_iff u).2 hf), hok, hdone,
      present_of_enabled (enabled_srsp (s := u) hs hf true), if_pos rfl, runOps_cons, hsrsp]
    rfl
  have hbefore : beforeRxb p c.begun = .next v := by
    rw [hbegun, beforeRxb, present_of_enabled (i := .tick) hs, htick, andThen_next, hconsumer]
  have hroom : v.isFull = false := by
    obtain ⟨-, hcfg⟩ := exec_trace_cfg hsrsp
    rw [State.isFull_eq_false_iff, hcfg]
    have hu : u.count = u.cfg.capacity := hfull
    omega
  have henabled : (p.rxValid && enabled (.rxb p.rxData) v) = true := by rw [hrx]; exact hv
  show rxOkOutput p c = some true
  rw [rxOkOutput, hp, hbefore]
  simp [henabled, hroom]

/-! ### The two cycles of a host event -/

/-- Settles O53: the first cycle latches and begins, the second commits (`exec_hostOp_eq_hostDone`), and
neither has a FIFO operation. -/
theorem hostEventTakesTwoCycles : Obligations.HostEventTakesTwoCycles := by
  intro kind dtr rts baud par stop2 dbits s hs hh p
  set c : CycleState := { s := s, phase := .none, probeDue := false }
  have hev : (p.evValid && c.evReady) = true := enabled_host hs hh
  have hrun : runOps (p.fifoOps c.s) c.begun = .next s := by
    simp [PortsIn.fifoOps, p, PortsIn.quiet, c]
  have hfirst := cycle_of_runOps_event (p := p) rfl (c := c) hs hev hrun
  set c₁ : CycleState := { s := (hostFirst p s).1, phase := (hostFirst p s).2, probeDue := false }
  have hready : c₁.evReady = false := evReady_after_hostFirst p s false
  refine ⟨c₁, c₁.hostDone, hfirst, hready, fun hidle => ?_, ?_, exec_hostOp_eq_hostDone p hs hh false⟩
  · rcases hostFirst_cases p s with ⟨-, h⟩ | ⟨-, h⟩
    · simp [c₁, h, CycleState.hostDone] at hidle
    · simp [c₁, h]
  · exact cycle_of_runOps_no_event rfl (hostFirst_resetSeen p hs hh) rfl (by rw [fifoOps_quiet]; rfl)

/-- The events of the first cycle of a host event: LEFWD of a LENC, then PMR of a fresh legacy arm, or CANCEL
(R87). -/
def hostEventsFirst (p : PortsIn) (s : State) : List Event :=
  (if p.evKind = true then [] else [.leFwd p.evBaud p.evPar p.evStop2 p.evDbits]) ++
    if hostArms p s = true then
      (if s.hsState = .idle ∧ s.slotSel = .legacy then
        [.pmr s.cfg.legacySlotAddr (s.pmem16 s.cfg.legacySlotAddr)] else [])
    else [.rt .cancel]

/-- The events of its second cycle: the write of the slot and the command to the timer (R87). -/
def hostEventsSecond (p : PortsIn) (s : State) : List Event :=
  if hostArms p s = true then [.pmw (slotAddr s.cfg s.slotSel) s.cfg.magicKey, .rt .startArm]
  else [.rt .startAbsorb, .pmw (slotAddr s.cfg s.slotSel) s.clearValue]

/-- The latch of a host event emits LEFWD of a LENC and leaves what arm and cancel read but for the baud and
DTR registers. -/
theorem hostLatch_leaves (p : PortsIn) (s : State) :
    (hostLatch p s).trace =
        s.trace ++ (if p.evKind = true then [] else [.leFwd p.evBaud p.evPar p.evStop2 p.evDbits]) ∧
      (hostLatch p s).hsState = s.hsState ∧ (hostLatch p s).slotSel = s.slotSel ∧
      (hostLatch p s).cfg = s.cfg ∧ (hostLatch p s).pmem = s.pmem ∧ (hostLatch p s).backup = s.backup := by
  unfold hostLatch
  cases p.evKind <;> simp

theorem armCapture_trace (s : State) :
    (armCapture s).trace = s.trace ++ if s.hsState = .idle ∧ s.slotSel = .legacy then
      [.pmr s.cfg.legacySlotAddr (s.pmem16 s.cfg.legacySlotAddr)] else [] := by
  by_cases h : s.hsState = .idle ∧ s.slotSel = .legacy
  · rw [armCapture_of_fresh h, if_pos h]
  · rw [armCapture_of_not_fresh h, if_neg h, List.append_nil]

theorem armCapture_slot (s : State) : (armCapture s).cfg = s.cfg ∧ (armCapture s).slotSel = s.slotSel := by
  unfold armCapture
  split <;> exact ⟨rfl, rfl⟩

theorem hostFirst_trace (p : PortsIn) (s : State) :
    (hostFirst p s).1.trace = s.trace ++ hostEventsFirst p s := by
  obtain ⟨htrace, hhs, hslot, hcfg, hpmem, -⟩ := hostLatch_leaves p s
  rcases hostFirst_cases p s with ⟨harms, h⟩ | ⟨harms, h⟩
  · rw [h, armCapture_trace, htrace, hhs, hslot, State.pmem16, hcfg, hpmem, List.append_assoc,
      hostEventsFirst, if_pos harms]
    rfl
  · rw [h, cancelBegin_trace, htrace, List.append_assoc, hostEventsFirst, harms]
    rfl

theorem hostDone_trace (p : PortsIn) (s : State) (due : Bool) :
    (CycleState.hostDone { s := (hostFirst p s).1, phase := (hostFirst p s).2, probeDue := due }).trace =
      (hostFirst p s).1.trace ++ hostEventsSecond p s := by
  obtain ⟨-, -, hslot, hcfg, -, hbackup⟩ := hostLatch_leaves p s
  rcases hostFirst_cases p s with ⟨harms, h⟩ | ⟨harms, h⟩
  · obtain ⟨hcfg', hslot'⟩ := armCapture_slot (hostLatch p s)
    simp [h, CycleState.hostDone, hostEventsSecond, harms, hcfg', hslot', hcfg, hslot]
  · simp [h, CycleState.hostDone, hostEventsSecond, harms, hcfg, hslot, hbackup, State.clearValue_eq]

/-- The events of a host event read no FIFO state and no trace (R136). -/
theorem hostEvents_withHandshakeOf (p : PortsIn) {s t : State} (hc : t.cfg = s.cfg) (trace : List Event) :
    hostEventsFirst p (withHandshakeOf { s with trace := trace } t) = hostEventsFirst p s ∧
      hostEventsSecond p (withHandshakeOf { s with trace := trace } t) = hostEventsSecond p s := by
  set u := withHandshakeOf { s with trace := trace } t
  have hcfg : u.cfg = s.cfg := hc
  have harms : hostArms p u = hostArms p s := by
    unfold hostArms hostLatch
    cases p.evKind
    · exact congrArg (fun c : Config => c.leEventArms && _) hc
    · rfl
  have hregs : u.hsState = s.hsState ∧ u.slotSel = s.slotSel ∧ u.pmem = s.pmem ∧
      u.clearValue = s.clearValue := ⟨rfl, rfl, rfl, rfl⟩
  constructor
  · simp only [hostEventsFirst, harms, State.pmem16, hcfg, hregs]
  · simp only [hostEventsSecond, harms, hcfg, hregs]

theorem mem_hostEventsFirst (p : PortsIn) (s : State) : ∀ e ∈ hostEventsFirst p s,
    e matches .leFwd _ _ _ _ ∨ e matches .pmr _ _ ∨ e matches .rt .cancel := by
  unfold hostEventsFirst
  split_ifs <;> simp

theorem mem_hostEventsSecond (p : PortsIn) (s : State) : ∀ e ∈ hostEventsSecond p s,
    e matches .pmw _ _ ∨ e matches .rt .startArm ∨ e matches .rt .startAbsorb := by
  unfold hostEventsSecond
  split_ifs <;> simp

/-- Settles O54: the first cycle is the FIFO operations and the first half of the event on the state they
leave; what comes next begins with the second half; and the events of the two halves are the same whatever
the FIFO operations did (`hostEvents_withHandshakeOf`). -/
theorem fifoOperationsDuringAHostEvent : Obligations.FifoOperationsDuringAHostEvent := by
  intro p q s hinv hs hp hev
  obtain ⟨sp, hfifo, hinv', hs'⟩ := runOps_fifoOps_of_inv p hinv hs
  have hh := (hinv.regs hs).hsState_ne
  have hh' := (hinv'.regs hs').hsState_ne
  have haccept : (p.evValid && CycleState.evReady { s := s, phase := .none, probeDue := false }) = true := by
    rw [hev]
    exact enabled_host hs hh
  have hfirst :=
    cycle_of_runOps_event (c := { s := s, phase := .none, probeDue := false }) hp hs haccept hfifo
  set c₁ : CycleState := { s := (hostFirst p sp).1, phase := (hostFirst p sp).2, probeDue := false }
  have hready : c₁.evReady = false := evReady_after_hostFirst p sp false
  have hseen : c₁.s.resetSeen = true := hostFirst_resetSeen p hs' hh'
  have hhost : exec p.hostOp sp = .next c₁.hostDone := exec_hostOp_eq_hostDone p hs' hh' false
  refine ⟨c₁, hfirst, hready, fun hq => ?_, fun hq => ?_, ?_⟩
  · obtain ⟨t, ht, -⟩ := runOps_fifoOps_of_inv q (s := c₁.begun) (exec_inv hinv' hhost)
      ((begun_resetSeen c₁).trans hseen)
    rw [fifoOps_begun] at ht
    refine ⟨t, cycle_of_runOps_no_event hq hseen (by rw [hready, Bool.and_false]) ht, ?_⟩
    rw [runOps_append, hfifo, andThen_next, runOps_cons, hhost, andThen_next]
    exact ht
  · refine ⟨resetCycle c₁, (resetCycle c₁).begun, cycle_of_rst hq c₁, ?_, ?_⟩
    · exact cycle_of_runOps_no_event rfl rfl rfl (by rw [fifoOps_quiet]; rfl)
    · rw [runOps_append, hfifo, andThen_next, runOps_cons, hhost, andThen_next, runOps_singleton,
        exec_rst_hostDone]
  · obtain ⟨e₁, hframe, hcfg⟩ := runOps_fifo_next (fun _ hi => isFifoOp_of_mem_fifoOps hi) hfifo
    obtain ⟨hev₁, hev₂⟩ := hostEvents_withHandshakeOf p hcfg (s.trace ++ e₁)
    rw [hframe] at hev₁ hev₂
    have htrace : sp.trace = s.trace ++ e₁ := (congrArg State.trace hframe).symm
    refine ⟨sp, _, e₁, hostEventsFirst p s, hostEventsSecond p s, hfifo, htrace,
      exec_hostOp_eq_hostDone p hs hh false, ?_, ?_, ?_, mem_hostEventsFirst p s,
      mem_hostEventsSecond p s⟩
    · rw [hostDone_trace, hostFirst_trace, List.append_assoc]
    · rw [← htrace]
      exact (hostFirst_trace p sp).trans (congrArg _ hev₁)
    · exact (hostDone_trace p sp false).trans (congrArg _ hev₂)

end Sys2Proof.Machine
end

section
/-!
The assembler (30_encoding.md R89, R90).
-/

namespace Sys2Proof.Machine

/-! ### Lines of source text -/

/-- Settles O57, by reading the four lines. -/
theorem assemblerExamples : Obligations.AssemblerExamples := by
  refine ⟨?_, ?_, ?_, ?_⟩ <;> decide

/-- Settles O58, by reading one line of each form. -/
theorem assemblerReadsEveryForm : Obligations.AssemblerReadsEveryForm := by
  refine ⟨?_, ?_, ?_, ?_, ?_, ?_, ?_, ?_, ?_, ?_, ?_, ?_, ?_, ?_, ?_, ?_, ?_, ?_, ?_, ?_, ?_, ?_, ?_⟩
  all_goals decide

/-! ### Operands and fields -/

theorem asmRxb_of_lt {d : Nat} (h : d < 2 ^ 8) : asmRxb d = some (.rxb (BitVec.ofNat 8 d)) := if_pos h

theorem asmLenc_of_lt {baud dbits : Nat} (hb : baud < 2 ^ 32) (hd : dbits < 2 ^ 4) (par : BitVec 2)
    (stop2 : BitVec 1) :
    asmLenc baud par stop2 dbits = some (.lenc (BitVec.ofNat 32 baud) par stop2 (BitVec.ofNat 4 dbits)) :=
  if_pos ⟨hb, hd⟩

/-- Settles O59: an operand with no field gives no operation, and so no word. -/
theorem operandOutOfRangeIsAnError : Obligations.OperandOutOfRangeIsAnError := by
  refine ⟨fun d hd => ?_, fun baud par stop2 dbits h => ?_, fun dtr rts h => ?_⟩
  · have herror : asmRxb d = none := if_neg (by omega)
    rw [AsmLine.words, AsmLine.expand, herror]
    rfl
  · have herror : asmLenc baud par stop2 dbits = none := if_neg (by omega)
    rw [AsmLine.words, AsmLine.expand, herror]
    rfl
  · have herror : asmCtrl dtr rts = none := if_neg (by omega)
    rw [AsmLine.words, AsmLine.expand, herror]
    rfl

/-! ### Pseudo-operations -/

theorem setWidth_ofNat_of_lt {w d : Nat} (hw : w ≤ 64) (h : d < 2 ^ w) :
    (BitVec.ofNat w d).setWidth 64 = BitVec.ofNat 64 d := by
  have h64 : d < 2 ^ 64 := h.trans_le (Nat.pow_le_pow_right two_pos hw)
  refine BitVec.eq_of_toNat_eq ?_
  rw [BitVec.toNat_setWidth, BitVec.toNat_ofNat, BitVec.toNat_ofNat, Nat.mod_eq_of_lt h]

/-- The word of RXB d: the opcode and the byte (R71). -/
theorem encode_rxb_ofNat {d : Nat} (h : d < 2 ^ 8) :
    encode (.rxb (BitVec.ofNat 8 d)) = 0x2000000000000000 ||| BitVec.ofNat 64 d := by
  have hopcode : opcodeWord .rxb = 0x2000000000000000 := by decide
  rw [encode, fieldBits, setWidth_ofNat_of_lt (by decide) h, opcodeOf, hopcode]

/-- The word of LENC baud, none, 1, 8: the opcode with DBITS, and the baud (R71). -/
theorem encode_lenc_ofNat {baud : Nat} (h : baud < 2 ^ 32) :
    encode (.lenc (BitVec.ofNat 32 baud) 0 0 8) = 0x5000004000000000 ||| BitVec.ofNat 64 baud := by
  have hothers : opcodeWord .lenc ||| ((0 : BitVec 2).setWidth 64 <<< 32 |||
      ((0 : BitVec 1).setWidth 64 <<< 34 ||| (8 : BitVec 4).setWidth 64 <<< 35)) = 0x5000004000000000 := by
    decide
  rw [encode, fieldBits, setWidth_ofNat_of_lt (by decide) h, BitVec.or_assoc, BitVec.or_assoc,
    BitVec.or_comm (BitVec.ofNat 64 baud), ← BitVec.or_assoc, opcodeOf, hothers]

/-- Settles O60: each pseudo-operation's operations, and their words. -/
theorem pseudoOperationsExpand : Obligations.PseudoOperationsExpand := by
  refine ⟨fun n => ?_, fun n d hd => ?_, fun n => ?_, fun baud hb => ?_, rfl, rfl⟩
  · simp only [AsmLine.words, AsmLine.expand, Option.map_some, List.map_replicate]
    rfl
  · simp only [AsmLine.words, AsmLine.expand, asmRxb_of_lt hd, Option.map_some, List.map_append,
      List.map_replicate, List.map_cons, List.map_nil, encode_rxb_ofNat hd]
    rfl
  · simp only [AsmLine.words, AsmLine.expand, Option.map_some, List.map_replicate]
    rfl
  · simp only [AsmLine.words, AsmLine.expand, asmLenc_of_lt hb (show 8 < 2 ^ 4 by decide), Option.map_some,
      List.map_cons, List.map_nil]
    exact congrArg (fun w => some [w, 0x6000000000000001]) (encode_lenc_ofNat hb)

end Sys2Proof.Machine
end
